-- ==== Sys2Proof/Syntax.lean ====
section
/-! DEFINITION. The commands of command set version 1, one constructor per row of the opcode map (R56). -/

namespace Sys2Proof

/-- A command of the block. No command word carries an operand or an immediate: every operand is a fixed
register or memory (R59). -/
inductive Instr
  /-- No operation; completes with DONE (R94). -/
  | nop
  /-- Binarize SMP and pack it into PKD (R69). -/
  | pack
  /-- Transitions from PREV to PKD into W2B and B2W, then PREV := PKD (R73). -/
  | diff
  /-- (LK_X, LK_Y) to LK_RES and LK_MASK (R83). -/
  | lookup
  /-- PREV := the all-zero frame (R80). -/
  | clrprev
deriving DecidableEq, Repr

end Sys2Proof
end

