-- ==== Sys2Proof/Word.lean ====
section
/-! DEFINITION. The word types of the block and the two integer readings of a bit vector (R7, R37). -/

namespace Sys2Proof

/-- A PackedFrame byte: an element of PKD or PREV (R37). -/
abbrev Byte := BitVec 8

/-- A 16-bit element: a register of REG or a coordinate word of W2B or B2W (R37). -/
abbrev Half := BitVec 16

/-- `uint(v)`: the integer a bit vector denotes unsigned (R7). -/
abbrev uint {n : Nat} (v : BitVec n) : Nat := v.toNat

/-- `sint(v)`: the integer a bit vector denotes in two's complement (R7). -/
abbrev sint {n : Nat} (v : BitVec n) : Int := v.toInt

end Sys2Proof
end

