-- ==== Sys2Proof/Decode.lean ====
section
/-! DEFINITION. Decoding a command word (R66), its inverse (R56), and the host's reading of an opcode-table word. -/

namespace Sys2Proof

/-- Why a word is not a command (R57). -/
inductive Reject
  /-- RSV, bits 7:4, is not 0. -/
  | reservedBits (rsv : BitVec 4)
  /-- RSV is 0 and OP, bits 3:0, is a reserved opcode, 0x5 to 0xF. -/
  | reservedOpcode (op : BitVec 4)
deriving DecidableEq, Repr

/-- Field OP = w[3:0] (R55). -/
def opField (w : BitVec 8) : BitVec 4 := w.extractLsb' 0 4

/-- Field RSV = w[7:4] (R55). -/
def rsvField (w : BitVec 8) : BitVec 4 := w.extractLsb' 4 4

/-- The command of an opcode (R56). -/
def opcode (op : BitVec 4) : Option Instr :=
  match op.toNat with
  | 0 => some .nop
  | 1 => some .pack
  | 2 => some .diff
  | 3 => some .lookup
  | 4 => some .clrprev
  | _ => none

/-- Decoding a command word, in full (R66). -/
def decode (w : BitVec 8) : Except Reject Instr :=
  if rsvField w ≠ 0#4 then .error (.reservedBits (rsvField w))
  else
    match opcode (opField w) with
    | some i => .ok i
    | none => .error (.reservedOpcode (opField w))

/-- Decoding the 16-bit value of a CMD write: bits 15:8 play no part (R66). -/
def decodeWrite (v : BitVec 16) : Except Reject Instr := decode (v.extractLsb' 0 8)

/-- Decoding a list of bytes: every command is one byte long, so no length rule is needed (R58). The rest of the
list comes back with the command; no byte, no command. -/
def decodeBytes : List Byte → Option (Except Reject Instr × List Byte)
  | [] => none
  | b :: rest => some (decode b, rest)

/-- The command word of a command: RSV = 0 and OP the opcode (R55, R56). -/
def encode : Instr → BitVec 8
  | .nop => 0x00#8
  | .pack => 0x01#8
  | .diff => 0x02#8
  | .lookup => 0x03#8
  | .clrprev => 0x04#8

/-- The command word an opcode-table word of `nbits` bits stands for: the bits above `nbits` are 0, and a word is
one byte. -/
def tableWord (nbits w : Nat) : BitVec 8 := BitVec.ofNat 8 (w % 2 ^ nbits)

/-- The command the decoder reads from an opcode-table word. -/
def decodeTableWord (nbits w : Nat) : Option Instr :=
  match decode (tableWord nbits w) with
  | .ok i => some i
  | .error _ => none

end Sys2Proof
end

