-- ==== Sys2Proof/Config.lean ====
section
/-! DEFINITION. What an implementation of the block fixes (R5, R6): the frame geometry, the sample width and
the open latencies, and the free values of the Host's computation. -/

namespace Sys2Proof

/-- W: the number of pixel columns (R5). -/
abbrev Config.width : Nat := 128

/-- H: the number of pixel rows (R5). -/
abbrev Config.height : Nat := 64

/-- NPIX = W * H: the number of pixels of a frame (R5). -/
abbrev Config.npix : Nat := 8192

/-- NBYTES = ceil(W * H / 8): the number of bytes of a PackedFrame (R5). -/
abbrev Config.nbytes : Nat := 1024

/-- SAMPLE_W: the width of one input sample in SMP (R6, D6). -/
abbrev Config.sampleW : Nat := 8

/-- One less than LAT_op, the OPEN latency of a command (R6, R126, D23). Opaque: no proof can use a value of it. -/
opaque Config.latencyPred : Instr → Nat

/-- LAT_op: the cycles from an accepted CMD write to the Engine's completion step, at least one (R126). The
model has no time, so no rule of it depends on this number. -/
def Config.latency (i : Instr) : Nat := Config.latencyPred i + 1

/-! Free values of the Host's computation (log 4): what the spec leaves without a value. Each is opaque, a function of
what it may depend on, and nothing is known of it. -/

/-- The value of a Host variable cell to which nothing was assigned (R64). -/
opaque Config.openCell : Nat → Int → Int

/-- `a div b` outside the operands R8 allows. -/
opaque Config.openDiv : Int → Int → Int

/-- `a mod b` outside the operands R8 allows. -/
opaque Config.openMod : Int → Int → Int

/-- `a << b` by a negative count (R8). -/
opaque Config.openShl : Int → Int → Int

/-- `a >> b` of a negative integer or by a negative count (R8). -/
opaque Config.openShr : Int → Int → Int

/-- `v[hi:lo]` with `hi < lo` (R7). -/
opaque Config.openField : Nat → Nat → Int → Int

/-- The `w` bits that stand for an integer which `w` bits do not hold (R7, R8, R37, R38). -/
opaque Config.openBits : (w : Nat) → Int → BitVec w

/-- Where a jump to a label the program does not define goes: a function of the label, of the position of the jump and of
the length of the program (R64). -/
opaque Config.openJump : Nat → Nat → Nat → Nat

end Sys2Proof
end

