-- ==== Sys2Proof/Machine/Frame.lean ====
section
/-! DEFINITION. Frames as values: the zero test, the PackedFrame layout, packing and unpacking, the transitions
between two frames, and the pixel writes of a consumer (R12, R62, R67, R68, R72, R73, R88). -/

namespace Sys2Proof.Machine

/-- `pix(s)`: a sample equal to 0 is black (0), every other value is white (1) (R11, R68). -/
def pix (s : BitVec Config.sampleW) : Bool := decide (uint s ≠ 0)

/-- The eight pixels of a byte in raster order, bit 7 first (R62). -/
def byteBits (b : Byte) : List Bool :=
  [b.getLsbD 7, b.getLsbD 6, b.getLsbD 5, b.getLsbD 4, b.getLsbD 3, b.getLsbD 2, b.getLsbD 1, b.getLsbD 0]

/-- `pack`: eight consecutive pixels in raster order per byte, the first in bit 7 (R62, R69). Fewer than eight
left-over pixels make no byte; a frame has none. -/
def packBits : List Bool → List Byte
  | p0 :: p1 :: p2 :: p3 :: p4 :: p5 :: p6 :: p7 :: rest =>
    (BitVec.ofBool p0 ++ BitVec.ofBool p1 ++ BitVec.ofBool p2 ++ BitVec.ofBool p3 ++
      BitVec.ofBool p4 ++ BitVec.ofBool p5 ++ BitVec.ofBool p6 ++ BitVec.ofBool p7) :: packBits rest
  | _ => []

/-- `unpack(F)`: the pixels of a PackedFrame in raster order (R67). -/
def unpack (F : List Byte) : List Bool := F.flatMap byteBits

/-- `bit(F, i) = F[i div 8][7 - (i mod 8)]`: the pixel at raster index `i` (R67). -/
def frameBit (F : List Byte) (i : Nat) : Bool := (F.getD (i / 8) 0#8).getLsbD (7 - i % 8)

/-- DIFF's loop over the raster indices from `i` on (R73): the white-to-black and the black-to-white indices, each in
ascending order, between the previous pixels and the current ones. -/
def transitions : Nat → List Bool → List Bool → List Nat × List Nat
  | i, pb :: ps, cb :: cs =>
    let rest := transitions (i + 1) ps cs
    if pb && !cb then (i :: rest.1, rest.2)
    else if !pb && cb then (rest.1, i :: rest.2)
    else rest
  | _, _, _ => ([], [])

/-- The all-zero frame: every pixel black (R12). -/
def zeroFrame : List Byte := List.replicate Config.nbytes 0x00#8

/-- `popcount` of a frame: the number of its 1 bits (R8). -/
def popcount (F : List Byte) : Nat := (unpack F).count true

/-- The byte mask of the pixel at raster index `i` (R83). -/
def pixelMask (i : Nat) : Byte := BitVec.ofNat 8 (2 ^ (7 - i % 8))

/-- A consumer's `set FrameBuffer[x,y] := 0` on a buffer in the PackedFrame layout (R88). -/
def clearPixel (G : List Byte) (i : Nat) : List Byte := G.modify (i / 8) (fun b => b &&& ~~~(pixelMask i))

/-- A consumer's `set FrameBuffer[x,y] := 1` on a buffer in the PackedFrame layout (R88). -/
def setPixel (G : List Byte) (i : Nat) : List Byte := G.modify (i / 8) (fun b => b ||| pixelMask i)

/-- One entry of a TransitionList: the pixel and the value it takes (R78, R81). -/
abbrev PixelWrite := Nat × Bool

/-- A consumer applies one entry (R88). -/
def applyPixel (G : List Byte) (e : PixelWrite) : List Byte :=
  if e.2 then setPixel G e.1 else clearPixel G e.1

/-- The entries of a pair of lists of raster indices: the white-to-black ones clear, the black-to-white ones set
(R78). -/
def pixelWrites (lists : List Nat × List Nat) : List PixelWrite :=
  lists.1.map (fun i => (i, false)) ++ lists.2.map (fun i => (i, true))

end Sys2Proof.Machine
end

