-- ==== Sys2Proof/Machine/Space.lean ====
section
/-! DEFINITION. The address spaces of the block and the elements they hold (R37). -/

namespace Sys2Proof.Machine

/-- The agents of the model (R4). -/
inductive Agent
  | host
  | engine
deriving DecidableEq, Repr

/-- The six address spaces (R37). -/
inductive Space
  | reg
  | smp
  | pkd
  | prev
  | w2b
  | b2w
deriving DecidableEq, Repr

/-- One element of an address space. The index has exactly the space's index width, so every index names an
element and none is out of range (R37). -/
inductive Loc
  | reg (i : BitVec 4)
  | smp (i : BitVec 13)
  | pkd (i : BitVec 10)
  | prev (i : BitVec 10)
  | w2b (i : BitVec 13)
  | b2w (i : BitVec 13)
deriving DecidableEq, Repr

/-- The width of an element, in bits (R37). -/
@[reducible] def Loc.width : Loc → Nat
  | .reg _ => 16
  | .smp _ => Config.sampleW
  | .pkd _ => 8
  | .prev _ => 8
  | .w2b _ => 16
  | .b2w _ => 16

/-- The number of elements of a space (R37). -/
def Space.size : Space → Nat
  | .reg => 16
  | .smp => Config.npix
  | .pkd => Config.nbytes
  | .prev => Config.nbytes
  | .w2b => Config.npix
  | .b2w => Config.npix

/-- Element `n` of a space, for `n` below the space's size. -/
def Space.elem (n : Nat) : Space → Loc
  | .reg => .reg (BitVec.ofNat 4 n)
  | .smp => .smp (BitVec.ofNat 13 n)
  | .pkd => .pkd (BitVec.ofNat 10 n)
  | .prev => .prev (BitVec.ofNat 10 n)
  | .w2b => .w2b (BitVec.ofNat 13 n)
  | .b2w => .b2w (BitVec.ofNat 13 n)

/-- The width of the indices of a space, in bits (R37). -/
def Space.indexWidth : Space → Nat
  | .reg => 4
  | .smp => 13
  | .pkd => 10
  | .prev => 10
  | .w2b => 13
  | .b2w => 13

/-- The element a Host program names by an integer index. R37 says no index is out of range, and does not say which element
an integer outside the space names: the index is a free one there (DESIGN CHOICE, log 4). -/
def Space.loc (sp : Space) (z : Int) : Loc :=
  sp.elem (if 0 ≤ z ∧ z < sp.size then z.toNat else (Config.openBits sp.indexWidth z).toNat)

end Sys2Proof.Machine
end

