-- ==== Sys2Proof/Machine/HostSyntax.lean ====
section
/-! DEFINITION. The Host program notation (R64) as data, and the Host agent that runs such a program (R4). -/

namespace Sys2Proof.Machine

/-- An expression over Host variables; every expression has a value, a free one where the spec gives none (log 4). R64 speaks of `an expression e over host variables` and fixes no grammar; this
one has the operators of R7 and R8, and the bit-vector ones carry the widths they work at, which the spec leaves to
`as written` (DESIGN CHOICE, log 3). A variable is a name and a cell number: the list variable `A[j]` of R65 is cell
`j` of `A`, a plain variable is cell 0. `zext_N(v)` and `uint(v)` need no operator: a bit vector is its unsigned
value. -/
inductive Expr
  | int (z : Int)
  | cell (name : Nat) (index : Expr)
  | add (a b : Expr)
  | sub (a b : Expr)
  | mul (a b : Expr)
  | div (a b : Expr)
  | mod (a b : Expr)
  /-- `a << b` on unbounded integers. -/
  | shl (a b : Expr)
  /-- `a >> b` on a non-negative integer. -/
  | shr (a b : Expr)
  | band (w : Nat) (a b : Expr)
  | bor (w : Nat) (a b : Expr)
  | bxor (w : Nat) (a b : Expr)
  | bnot (w : Nat) (a : Expr)
  /-- `a[hi:lo]`. -/
  | slice (hi lo : Nat) (a : Expr)
  /-- `a ++ b`, of a `v`-bit and a `w`-bit value. -/
  | concat (v w : Nat) (a b : Expr)
  /-- `sint(a)` of a `w`-bit value. -/
  | sint (w : Nat) (a : Expr)
  /-- `sext_n(a)` of a `w`-bit value. -/
  | sext (n w : Nat) (a : Expr)
  /-- `popcount(a)` of a `w`-bit value. -/
  | popcount (w : Nat) (a : Expr)
deriving DecidableEq, Repr

/-- A condition on Host variables (R64). -/
inductive Cond
  | eq (a b : Expr)
  | lt (a b : Expr)
  | not (c : Cond)
  | and (c d : Cond)
  | or (c d : Cond)
deriving DecidableEq, Repr

/-- One statement of a Host program (R64). Labels are numbers. -/
inductive Stmt
  /-- `WR S[i], v`: HostWrite. -/
  | wr (sp : Space) (index value : Expr)
  /-- `RD t, S[i]`: t := HostRead. -/
  | rd (name : Nat) (cell : Expr) (sp : Space) (index : Expr)
  /-- `L:`. -/
  | label (l : Nat)
  /-- `IF c GOTO L`. -/
  | ifGoto (c : Cond) (l : Nat)
  /-- `GOTO L`. -/
  | goto (l : Nat)
  /-- `t := e`. -/
  | assign (name : Nat) (cell e : Expr)
  /-- `HALT`. -/
  | halt
deriving DecidableEq, Repr

/-- The Host agent: its program, the position of its next statement, its variables (one entry per cell that holds
a value, keyed by name and cell number) and whether it has executed `HALT`. It is no state of the block (R36). -/
structure HostAgent where
  prog   : List Stmt
  pos    : Nat
  vars   : List ((Nat × Int) × Int)
  halted : Bool
deriving DecidableEq, Repr

/-- The Host with no program (State.reset's: a Host program is loaded from outside, DESIGN CHOICE, log 2). -/
def HostAgent.none : HostAgent := { prog := [], pos := 0, vars := [], halted := false }

end Sys2Proof.Machine
end

