-- ==== Sys2Proof/Machine/State.lean ====
section
/-! DEFINITION. The state of the block and of its agents as plain data (R15, R33, R34, R36), the reasons a step
can stop, and the state after reset (R35, R113). -/

namespace Sys2Proof.Machine

/-- The Engine phase (R16). -/
inductive Phase
  | idle
  | busy
deriving DecidableEq, Repr

/-- A memory of `w`-bit elements: the listed elements with their indices (for `w = 8` the entries are `Host.Cell`).
In SMP, PKD, W2B and B2W an unlisted element is unwritten (R33); in PREV an unlisted element is 0x00 (R29; log 9). -/
abbrev Memory (w : Nat) := List (Nat × BitVec w)

/-- The canonical form of a memory of `size` elements whose unlisted elements read as `blank` (`none`: unwritten):
indices strictly rising, all below `size`, and no entry that holds `blank`. -/
abbrev Memory.wf {w : Nat} (size : Nat) (blank : Option (BitVec w)) (m : Memory w) : Prop :=
  (m.map Prod.fst).Pairwise (· < ·) ∧ ∀ e ∈ m, e.1 < size ∧ some e.2 ≠ blank

/-- Who takes a step: an agent (R4) or the environment's reset (R113). -/
inductive Turn
  | host
  | engine
  | reset
deriving DecidableEq, Repr

/-- Why a step stops (R13). -/
inductive Fault
  /-- Model fault HAZARD: a Host access to a location of the blocked set while BUSY. Raised by `hostRead` and
  `hostWrite`. The spec's own fault (R43, R101); safe: the model gives the access no value. -/
  | hazard (l : Loc)
  /-- Model fault UNINIT: a read of an unwritten element, by the Host (`hostRead`) or by the Engine (`execPack`,
  `execDiff`). The spec's own fault (R44, R101); safe: the model gives the element no value. -/
  | uninit (a : Agent) (l : Loc)
  /-- No agent has an enabled step (R13). Raised by `takeTurn` and `hostStep`. Safe: the model goes nowhere. -/
  | stuck
deriving DecidableEq, Repr

/-- Why a step is refused. -/
inductive Refusal
  /-- `exec` has no meaning for the instruction yet. Raised by `exec`'s arms only. Safe. -/
  | notModelled (mnemonic : String)
  /-- The Engine has a pending word that is no command. Raised by `engineStep`. Safe; R93 says no such word reaches
  Exec, and `State.Inv` (Safety.lean), which every step keeps, rules it out. -/
  | pendingNoCommand (word : BitVec 8)
deriving DecidableEq, Repr

/-- The state of the block (R15), the model-only fault record (R34), and the model's own fields for the agents: the
Host and the order of turns (log 1, log 2). -/
structure State where
  /-- PHASE (R16); STATUS.BUSY is its view (R20). -/
  phase : Phase
  /-- CMD, the word of the last accepted command (R19). -/
  cmd : BitVec 8
  /-- STATUS.DONE (R20). -/
  done : Bool
  /-- STATUS.ERR_ILLEGAL (R20). -/
  errIllegal : Bool
  /-- STATUS.ERR_BUSY (R20). -/
  errBusy : Bool
  /-- CTRL.IE_DONE (R21). -/
  ieDone : Bool
  /-- CTRL.IE_ERR (R21). -/
  ieErr : Bool
  /-- W2B_CNT (R22). -/
  w2bCnt : BitVec 14
  /-- B2W_CNT (R22). -/
  b2wCnt : BitVec 14
  /-- LK_X (R23). -/
  lkX : BitVec 16
  /-- LK_Y (R23). -/
  lkY : BitVec 16
  /-- LK_RES (R24). -/
  lkRes : BitVec 16
  /-- LK_MASK (R25). -/
  lkMask : BitVec 8
  /-- SMP (R27); unlisted elements are unwritten. -/
  smp : Memory Config.sampleW
  /-- PKD (R28); unlisted elements are unwritten. -/
  pkd : Memory 8
  /-- PREV (R29); unlisted elements are 0x00. -/
  prev : Memory 8
  /-- W2B (R30); unlisted elements are unwritten. -/
  w2b : Memory 16
  /-- B2W (R31); unlisted elements are unwritten. -/
  b2w : Memory 16
  /-- The fault record (R34): a set, so no fault is listed twice. -/
  faultRecord : List Fault
  /-- The Host agent (R4); the model's own field (log 2). -/
  host : HostAgent
  /-- The turns to come, first first; the model's own field (log 1). -/
  schedule : List Turn
deriving DecidableEq, Repr

/-- The state right after reset (R35, R113), at the start of a run: the fault record is empty (R34). The Host has no
program and no turn is scheduled (DESIGN CHOICE, log 1 and log 2). -/
def State.reset : State where
  phase := .idle
  cmd := 0x00#8
  done := false
  errIllegal := false
  errBusy := false
  ieDone := false
  ieErr := false
  w2bCnt := 0#14
  b2wCnt := 0#14
  lkX := 0x0000#16
  lkY := 0x0000#16
  lkRes := 0x0000#16
  lkMask := 0x00#8
  smp := []
  pkd := []
  prev := []
  w2b := []
  b2w := []
  faultRecord := []
  host := HostAgent.none
  schedule := []

end Sys2Proof.Machine
end

