-- ==== Sys2Proof/Machine/Ops.lean ====
section
/-! DEFINITION. The named operations over memories and registers that every meaning is built from (R39, R90, R91, R92,
R113, R34). The block takes no exception and returns from none (R104, R105); its shared event operations are accepting
and rejecting a CMD write, completing a command, reset, and recording a fault. -/

namespace Sys2Proof.Machine

/-- The value listed for element `i`; none when the element is not listed. -/
def Memory.read {w : Nat} : Memory w → Nat → Option (BitVec w)
  | [], _ => none
  | (a, v) :: m, i => if i = a then some v else Memory.read m i

/-- `MemWrite` into a memory whose unlisted elements are unwritten: element `i` holds `v` afterwards (R39). The indices
stay strictly rising. -/
def Memory.write {w : Nat} : Memory w → Nat → BitVec w → Memory w
  | [], i, v => [(i, v)]
  | (a, u) :: m, i, v =>
    if i < a then (i, v) :: (a, u) :: m
    else if i = a then (i, v) :: m
    else (a, u) :: Memory.write m i v

/-- The memory whose elements from `k` on hold the listed values and whose other elements are not listed. -/
def Memory.ofListFrom {w : Nat} : Nat → List (BitVec w) → Memory w
  | _, [] => []
  | k, v :: vs => (k, v) :: Memory.ofListFrom (k + 1) vs

/-- The memory that holds the listed values from element 0 on. -/
def Memory.ofList {w : Nat} (vs : List (BitVec w)) : Memory w := Memory.ofListFrom 0 vs

/-- The values of elements `i` to `i + n - 1` in ascending order, or the first of them that is unwritten (R39, R44). -/
def Memory.readFrom {w : Nat} (m : Memory w) : Nat → Nat → Except Nat (List (BitVec w))
  | _, 0 => .ok []
  | i, n + 1 =>
    match Memory.read m i with
    | none => .error i
    | some v =>
      match Memory.readFrom m (i + 1) n with
      | .error j => .error j
      | .ok vs => .ok (v :: vs)

/-- The value of element `k` of PREV, which has no unwritten element: an unlisted one is 0x00 (R29). -/
def prevByte (m : Memory 8) (k : Nat) : Byte := (Memory.read m k).getD 0x00#8

/-- The 1024 bytes of PREV (R29). -/
def prevFrame (m : Memory 8) : List Byte := (List.range Config.nbytes).map (prevByte m)

/-- PREV holding a whole frame: the bytes that are not 0x00 are listed (R29). -/
def prevOfFrame (F : List Byte) : Memory 8 := (Memory.ofList F).filter (fun e => e.2 != 0x00#8)

/-- An accepted CMD write of word `w`: CMD takes the word, PHASE becomes BUSY, DONE is cleared (R91). -/
def accept (w : BitVec 8) (s : State) : State := { s with cmd := w, phase := .busy, done := false }

/-- A CMD write rejected as busy: only ERR_BUSY is set (R90). -/
def rejectBusy (s : State) : State := { s with errBusy := true }

/-- A CMD write rejected as illegal: only ERR_ILLEGAL is set (R90). -/
def rejectIllegal (s : State) : State := { s with errIllegal := true }

/-- The end of the Engine's completion step: PHASE becomes IDLE and DONE is set (R92). -/
def complete (s : State) : State := { s with phase := .idle, done := true }

/-- PACK's write: all 1024 elements of PKD (R69). -/
def storePacked (F : List Byte) (s : State) : State := { s with pkd := Memory.ofList F }

/-- The write of a whole frame to PREV (R73, R80). -/
def storePrev (F : List Byte) (s : State) : State := { s with prev := prevOfFrame F }

/-- DIFF's write of the two lists and their counts: the entries at or above a count become unwritten (R73). -/
def storeLists (ws bs : List (BitVec 16)) (s : State) : State :=
  { s with
    w2b := Memory.ofList ws
    b2w := Memory.ofList bs
    w2bCnt := BitVec.ofNat 14 ws.length
    b2wCnt := BitVec.ofNat 14 bs.length }

/-- LOOKUP's write (R83). -/
def storeLookup (r : BitVec 16 × BitVec 8) (s : State) : State := { s with lkRes := r.1, lkMask := r.2 }

/-- A Host write to LK_X (R97). -/
def writeLkX (v : BitVec 16) (s : State) : State := { s with lkX := v }

/-- A Host write to LK_Y (R97). -/
def writeLkY (v : BitVec 16) (s : State) : State := { s with lkY := v }

/-- A Host write to an element of SMP (R27, R44). -/
def writeSmp (i : Nat) (v : BitVec Config.sampleW) (s : State) : State := { s with smp := Memory.write s.smp i v }

/-- A Host write to an element of PKD (R28, R44). -/
def writePkd (i : Nat) (v : Byte) (s : State) : State := { s with pkd := Memory.write s.pkd i v }

/-- Reset of the block: every piece of its state takes its reset value; the fault record stays (R113). The Host and the
schedule are no state of the block (R36) and stay too. -/
def resetBlock (s : State) : State :=
  { State.reset with faultRecord := s.faultRecord, host := s.host, schedule := s.schedule }

/-- The two model faults of R101; the other reasons a step stops are not recorded. -/
def Fault.isModelFault : Fault → Bool
  | .hazard _ => true
  | .uninit _ _ => true
  | .stuck => false

/-- The fault record after a fault: a set that only grows (R34). -/
def addFault (r : Fault) (record : List Fault) : List Fault :=
  if r.isModelFault && !record.contains r then record ++ [r] else record

/-- The faulted state: the faulting step records its fault and changes nothing else (R101; DESIGN CHOICE, log 8). -/
def recordFault (r : Fault) (s : State) : State := { s with faultRecord := addFault r s.faultRecord }

/-- The state with another Host agent. -/
def withHost (h : HostAgent) (s : State) : State := { s with host := h }

/-- The state with another schedule. -/
def withSchedule (ts : List Turn) (s : State) : State := { s with schedule := ts }

end Sys2Proof.Machine
end

