-- ==== Sys2Proof/Machine/Control.lean ====
section
/-! DEFINITION. The control family: NOP (R94). -/

namespace Sys2Proof.Machine

/-- NOP: no statement of its own, then completion (R92, R94). -/
def execNop (s : State) : Host.Outcome State Fault Refusal := .next (complete s)

end Sys2Proof.Machine
end

