-- ==== Sys2Proof/Machine/Operands.lean ====
section
/-! DEFINITION. Operand and result encodings: LOOKUP's coordinate operands and result words (R24, R60, R83, R84), and
the coordinate word (R61). -/

namespace Sys2Proof.Machine

/-- In bounds: `0 <= x < 128 and 0 <= y < 64` on signed integers (R84). -/
def inBounds (x y : Int) : Bool :=
  decide (0 ≤ x) && decide (x < Config.width) && decide (0 ≤ y) && decide (y < Config.height)

/-- The raster index of an in-bounds pixel: `i = y * W + x` (R10). -/
def rasterIndex (x y : Int) : Nat := (y * Config.width + x).toNat

/-- LK_RES of an in-bounds pixel: VALID = 1, two zero bits, BIT, BYTE (R24, R83). -/
def lookupWord (bitn byte : Nat) : BitVec 16 :=
  1#1 ++ 0#2 ++ BitVec.ofNat 3 bitn ++ BitVec.ofNat 10 byte

/-- LOOKUP's two results for the operands LK_X and LK_Y: LK_RES and LK_MASK (R83). -/
def lookupResult (lkX lkY : BitVec 16) : BitVec 16 × BitVec 8 :=
  if inBounds (sint lkX) (sint lkY) then
    let i := rasterIndex (sint lkX) (sint lkY)
    let bitn := 7 - i % 8
    (lookupWord bitn (i / 8), BitVec.ofNat 8 (2 ^ bitn))
  else (0x0000#16, 0x00#8)

/-- Field BYTE = LK_RES[9:0] (R24). -/
def lkByte (r : BitVec 16) : Nat := uint (r.extractLsb' 0 10)

/-- Field BIT = LK_RES[12:10] (R24). -/
def lkBit (r : BitVec 16) : Nat := uint (r.extractLsb' 10 3)

/-- Field VALID = LK_RES[15] (R24). -/
def lkValid (r : BitVec 16) : Bool := r.getLsbD 15

/-- The coordinate word of raster index `i`: `zext_16(i)` (R61). -/
def coordWord (i : Nat) : Half := BitVec.ofNat 16 i

/-- Field X of a coordinate word (R61). -/
def coordX (w : Half) : Nat := uint (w.extractLsb' 0 7)

/-- Field Y of a coordinate word (R61). -/
def coordY (w : Half) : Nat := uint (w.extractLsb' 7 6)

/-- The coordinate pair a coordinate word denotes (R61, R81). -/
def coordPair (w : Half) : Nat × Nat := (coordX w, coordY w)

end Sys2Proof.Machine
end

