-- ==== Sys2Proof/Machine/Delta.lean ====
section
/-! DEFINITION. The delta encoder: DIFF (R73) and CLRPREV (R80). -/

namespace Sys2Proof.Machine

/-- DIFF: the transitions from PREV to PKD go to the two lists in ascending raster order, PREV becomes PKD. An unwritten
PKD element faults and nothing is written (R73, R92). -/
def execDiff (s : State) : Host.Outcome State Fault Refusal :=
  match Memory.readFrom s.pkd 0 Config.nbytes with
  | .error k => .fault (.uninit .engine (Space.pkd.elem k))
  | .ok cur =>
    let lists := transitions 0 (unpack (prevFrame s.prev)) (unpack cur)
    .next (complete (storePrev cur (storeLists (lists.1.map coordWord) (lists.2.map coordWord) s)))

/-- CLRPREV: PREV becomes the all-zero frame (R80). -/
def execClrprev (s : State) : Host.Outcome State Fault Refusal := .next (complete (storePrev zeroFrame s))

end Sys2Proof.Machine
end

