-- ==== Sys2Proof/Machine/Lookup.lean ====
section
/-! DEFINITION. The framebuffer address lookup: LOOKUP (R83). -/

namespace Sys2Proof.Machine

/-- LOOKUP: LK_RES and LK_MASK from LK_X and LK_Y (R83). -/
def execLookup (s : State) : Host.Outcome State Fault Refusal :=
  .next (complete (storeLookup (lookupResult s.lkX s.lkY) s))

end Sys2Proof.Machine
end

