-- ==== Sys2Proof/Machine/Pack.lean ====
section
/-! DEFINITION. The bit-packing encoder: PACK (R69). -/

namespace Sys2Proof.Machine

/-- PACK: read all of SMP, binarize, pack into PKD, complete. An unwritten sample faults and nothing is written (R69,
R92). -/
def execPack (s : State) : Host.Outcome State Fault Refusal :=
  match Memory.readFrom s.smp 0 Config.npix with
  | .error i => .fault (.uninit .engine (Space.smp.elem i))
  | .ok samples => .next (complete (storePacked (packBits (samples.map pix)) s))

end Sys2Proof.Machine
end

