-- ==== Sys2Proof/Machine/Dispatch.lean ====
section
/-! DEFINITION. The meaning of every command: Exec of R93 together with the completion of R92. -/

namespace Sys2Proof.Machine

def exec (i : Instr) (s : State) : Host.Outcome State Fault Refusal :=
  match i with
  | .nop => Sys2Proof.Machine.execNop s
  | .pack => Sys2Proof.Machine.execPack s
  | .diff => Sys2Proof.Machine.execDiff s
  | .lookup => Sys2Proof.Machine.execLookup s
  | .clrprev => Sys2Proof.Machine.execClrprev s

end Sys2Proof.Machine
end

