-- ==== Sys2Proof/Machine/Flags.lean ====
section
/-! DEFINITION. The flags: STATUS and CTRL as register words, their writes, the interrupt line (R20, R21, R32, R95, R96,
R102). -/

namespace Sys2Proof.Machine

/-- STATUS.BUSY, always PHASE = BUSY (R20). -/
def State.busy (s : State) : Bool := decide (s.phase = .busy)

/-- STATUS as the Host reads it: bits 7:4 zero, then ERR_BUSY, ERR_ILLEGAL, DONE, BUSY (R20). -/
def statusWord (s : State) : BitVec 8 :=
  0#4 ++ BitVec.ofBool s.errBusy ++ BitVec.ofBool s.errIllegal ++ BitVec.ofBool s.done ++ BitVec.ofBool s.busy

/-- CTRL as the Host reads it: bits 7:2 zero, then IE_ERR, IE_DONE (R21). -/
def ctrlWord (s : State) : BitVec 8 := 0#6 ++ BitVec.ofBool s.ieErr ++ BitVec.ofBool s.ieDone

/-- A Host write of `v` to STATUS: write 1 to clear on bits 1, 2 and 3; every other bit is ignored (R95). -/
def writeStatus (v : BitVec 16) (s : State) : State :=
  { s with
    done := s.done && !v.getLsbD 1
    errIllegal := s.errIllegal && !v.getLsbD 2
    errBusy := s.errBusy && !v.getLsbD 3 }

/-- A Host write of `v` to CTRL: bits 1:0 are stored, the rest are ignored (R96). -/
def writeCtrl (v : BitVec 16) (s : State) : State :=
  { s with ieDone := v.getLsbD 0, ieErr := v.getLsbD 1 }

/-- The interrupt line, a function of STATUS and CTRL (R102). -/
def irq (s : State) : Bool := (s.done && s.ieDone) || ((s.errIllegal || s.errBusy) && s.ieErr)

end Sys2Proof.Machine
end

