-- ==== Sys2Proof/Machine/Access.lean ====
section
/-! DEFINITION. The two operations by which the Host reaches the block, HostRead and HostWrite, over the access table
(R38 to R44, R89 to R91, R95 to R97). -/

namespace Sys2Proof.Machine

/-- The blocked set: the locations whose Host access while BUSY is a hazard (R40, R43). -/
def Loc.blocked : Loc → Bool
  | .reg i => decide (3 ≤ i.toNat ∧ i.toNat ≤ 8)
  | .smp _ => true
  | .pkd _ => true
  | .prev _ => true
  | .w2b _ => true
  | .b2w _ => true

/-- What a Host read of a register returns: `zext_16` of its value; a reserved index returns 0x0000 (R18, R26). -/
def readReg (s : State) (i : BitVec 4) : BitVec 16 :=
  match i.toNat with
  | 0 => s.cmd.setWidth 16
  | 1 => (statusWord s).setWidth 16
  | 2 => (ctrlWord s).setWidth 16
  | 3 => s.w2bCnt.setWidth 16
  | 4 => s.b2wCnt.setWidth 16
  | 5 => s.lkX
  | 6 => s.lkY
  | 7 => s.lkRes
  | 8 => s.lkMask.setWidth 16
  | _ => 0x0000#16

/-- The value of an element, or UNINIT by the Host when it is unwritten (R39, R44). -/
def valueOr (l : Loc) {w : Nat} : Option (BitVec w) → Except Fault (BitVec w)
  | some v => .ok v
  | none => .error (.uninit .host l)

/-- `HostRead(S, i)` (R38): the element's value at its width, a hazard (R43), or an unwritten element (R44). -/
def hostRead (s : State) (l : Loc) : Except Fault (BitVec l.width) :=
  if s.phase = .busy ∧ l.blocked then .error (.hazard l)
  else
    match l with
    | .reg i => .ok (readReg s i)
    | .smp i => valueOr (.smp i) (Memory.read s.smp i.toNat)
    | .pkd i => valueOr (.pkd i) (Memory.read s.pkd i.toNat)
    | .prev i => .ok (prevByte s.prev i.toNat)
    | .w2b i => valueOr (.w2b i) (Memory.read s.w2b i.toNat)
    | .b2w i => valueOr (.b2w i) (Memory.read s.b2w i.toNat)

/-- A Host write to CMD, classified: rejected as busy, rejected as illegal, or accepted (R89). -/
def writeCmd (v : BitVec 16) (s : State) : State :=
  match s.phase with
  | .busy => rejectBusy s
  | .idle =>
    match decodeWrite v with
    | .error _ => rejectIllegal s
    | .ok _ => accept (v.extractLsb' 0 8) s

/-- A Host write to a register that is no hazard: read-only and reserved registers ignore it (R26, R40, R41). -/
def writeReg (i : BitVec 4) (v : BitVec 16) (s : State) : State :=
  match i.toNat with
  | 0 => writeCmd v s
  | 1 => writeStatus v s
  | 2 => writeCtrl v s
  | 5 => writeLkX v s
  | 6 => writeLkY v s
  | _ => s

/-- `HostWrite(S, i, v)` (R38): a hazard (R43), or the effect the access table gives (R40, R41, R49). -/
def hostWrite (s : State) (l : Loc) (v : BitVec l.width) : Except Fault State :=
  if s.phase = .busy ∧ l.blocked then .error (.hazard l)
  else
    match l, v with
    | .reg i, v => .ok (writeReg i v s)
    | .smp i, v => .ok (writeSmp i.toNat v s)
    | .pkd i, v => .ok (writePkd i.toNat v s)
    | .prev _, _ => .ok s
    | .w2b _, _ => .ok s
    | .b2w _, _ => .ok s

end Sys2Proof.Machine
end

