-- ==== Sys2Proof/Machine/HostStep.lean ====
section
/-! DEFINITION. The Host agent: the values of Host expressions, one Host step, and the pseudo-instructions of R65. -/

namespace Sys2Proof.Machine

/-- The value assigned to a Host variable cell; none when nothing was assigned to it. A cell is a name and a cell number,
which is any integer (DESIGN CHOICE, log 3). -/
def lookupVar : List ((Nat × Int) × Int) → Nat × Int → Option Int
  | [], _ => none
  | (k, z) :: vars, key => if key = k then some z else lookupVar vars key

/-- The variables after a cell takes a value: one entry per cell. -/
def assignVar : List ((Nat × Int) × Int) → Nat × Int → Int → List ((Nat × Int) × Int)
  | [], key, z => [(key, z)]
  | (k, y) :: vars, key, z => if key = k then (k, z) :: vars else (k, y) :: assignVar vars key z

/-- The value of a Host variable cell: a free one when nothing was assigned to it (R64; DESIGN CHOICE, log 4). -/
def cellValue (vars : List ((Nat × Int) × Int)) (key : Nat × Int) : Int :=
  (lookupVar vars key).getD (Config.openCell key.1 key.2)

/-- `w` bits hold the integer, unsigned or in two's complement (R7). -/
def fits (w : Nat) (z : Int) : Bool := decide (-(2 ^ (w - 1) : Int) ≤ z ∧ z < (2 ^ w : Int))

/-- An integer as a `w`-bit value. One that `w` bits do not hold is never truncated (R8, R123): its bits are free, where R8
calls the store a specification error and is silent on an operand (DESIGN CHOICE, log 4). -/
def toBits (w : Nat) (z : Int) : BitVec w := if fits w z then BitVec.ofInt w z else Config.openBits w z

/-- `a div b` (R8): on `0 ≤ a` and `0 < b`; elsewhere free (DESIGN CHOICE, log 4). -/
def divInt (x y : Int) : Int := if 0 ≤ x ∧ 0 < y then x / y else Config.openDiv x y

/-- `a mod b` (R8): on `0 ≤ a` and `0 < b`; elsewhere free (DESIGN CHOICE, log 4). -/
def modInt (x y : Int) : Int := if 0 ≤ x ∧ 0 < y then x % y else Config.openMod x y

/-- `a << b` (R8): on unbounded integers, so no bit is lost. By a negative count it is free (DESIGN CHOICE, log 4). -/
def shiftLeftInt (x y : Int) : Int := if 0 ≤ y then x * 2 ^ y.toNat else Config.openShl x y

/-- `a >> b`, a logical shift (R8). Of a negative integer or by a negative count it is free (DESIGN CHOICE, log 4). -/
def shiftRightInt (x y : Int) : Int := if 0 ≤ x ∧ 0 ≤ y then x / 2 ^ y.toNat else Config.openShr x y

/-- An operator on two `w`-bit values, answering an unsigned value (R8). -/
def bitwise (w : Nat) (f : BitVec w → BitVec w → BitVec w) (x y : Int) : Int := (uint (f (toBits w x) (toBits w y)) : Nat)

/-- `v[hi:lo]` (R7), unsigned. A negative integer gives its two's complement bits (DESIGN CHOICE, log 3); with `hi < lo`,
where R7 gives no field, the value is free (DESIGN CHOICE, log 4). -/
def sliceInt (hi lo : Nat) (x : Int) : Int :=
  if lo ≤ hi then (uint ((BitVec.ofInt (hi + 1) x).extractLsb' lo (hi + 1 - lo)) : Nat) else Config.openField hi lo x

/-- `sext_n(v)` of a `w`-bit value (R7). For `n < w`, where R7 is silent, no bit is dropped: the value is `sint(v)` in `n`
bits where `n` bits hold it, and free elsewhere (DESIGN CHOICE, log 4). -/
def sextInt (n w : Nat) (x : Int) : Int := (uint (toBits n (sint (toBits w x))) : Nat)

/-- `popcount(v)`: the number of 1 bits of a value (R8). -/
def popcountWord {w : Nat} (v : BitVec w) : Nat := (List.range w).countP fun j => v.getLsbD j

/-- The value of a Host expression (R7, R8, R64; log 3). The bit-vector operators take their operands as bits of the written
widths (`toBits`) and answer the unsigned value (`sint` the signed one). Every expression has a value: where the spec
gives none it is free, and what is computed from it is computed (DESIGN CHOICE, log 4). -/
def evalExpr (vars : List ((Nat × Int) × Int)) : Expr → Int
  | .int z => z
  | .cell name index => cellValue vars (name, evalExpr vars index)
  | .add a b => evalExpr vars a + evalExpr vars b
  | .sub a b => evalExpr vars a - evalExpr vars b
  | .mul a b => evalExpr vars a * evalExpr vars b
  | .div a b => divInt (evalExpr vars a) (evalExpr vars b)
  | .mod a b => modInt (evalExpr vars a) (evalExpr vars b)
  | .shl a b => shiftLeftInt (evalExpr vars a) (evalExpr vars b)
  | .shr a b => shiftRightInt (evalExpr vars a) (evalExpr vars b)
  | .band w a b => bitwise w (fun x y => x &&& y) (evalExpr vars a) (evalExpr vars b)
  | .bor w a b => bitwise w (fun x y => x ||| y) (evalExpr vars a) (evalExpr vars b)
  | .bxor w a b => bitwise w (fun x y => x ^^^ y) (evalExpr vars a) (evalExpr vars b)
  | .bnot w a => (uint (~~~(toBits w (evalExpr vars a))) : Nat)
  | .slice hi lo a => sliceInt hi lo (evalExpr vars a)
  | .concat v w a b => (uint (toBits v (evalExpr vars a) ++ toBits w (evalExpr vars b)) : Nat)
  | .sint w a => Sys2Proof.sint (toBits w (evalExpr vars a))
  | .sext n w a => sextInt n w (evalExpr vars a)
  | .popcount w a => (popcountWord (toBits w (evalExpr vars a)) : Nat)

/-- The truth of a Host condition (R64). -/
def evalCond (vars : List ((Nat × Int) × Int)) : Cond → Bool
  | .eq a b => decide (evalExpr vars a = evalExpr vars b)
  | .lt a b => decide (evalExpr vars a < evalExpr vars b)
  | .not c => !evalCond vars c
  | .and c d => evalCond vars c && evalCond vars d
  | .or c d => evalCond vars c || evalCond vars d

/-- The position of the first statement `L:` of a program, counted from `n` (R64). -/
def labelPos (l : Nat) : Nat → List Stmt → Option Nat
  | _, [] => none
  | n, st :: rest => if st = .label l then some n else labelPos l (n + 1) rest

/-- The Host agent at its next statement. -/
def advance (h : HostAgent) : HostAgent := { h with pos := h.pos + 1 }

/-- The Host agent after a variable cell takes a value and the program goes on. -/
def assignNext (name : Nat) (cell z : Int) (h : HostAgent) : HostAgent :=
  { h with vars := assignVar h.vars (name, cell) z, pos := h.pos + 1 }

/-- The Host agent after a jump to a label: at the first statement with the label (R64). To a label the program does not
define it goes to a free position (DESIGN CHOICE, log 4); from a position past the program's end the Host has no step. -/
def jump (l : Nat) (h : HostAgent) : HostAgent :=
  { h with pos := (labelPos l 0 h.prog).getD (Config.openJump l h.pos h.prog.length) }

/-- The element `S[index]` a statement names (R37, R64). -/
def hostLoc (sp : Space) (index : Expr) (s : State) : Loc := sp.loc (evalExpr s.host.vars index)

/-- `WR S[i], v` (R64): HostWrite, then the next statement. -/
def runWr (sp : Space) (index value : Expr) (s : State) : Except Fault State :=
  match hostWrite s (hostLoc sp index s) (toBits (hostLoc sp index s).width (evalExpr s.host.vars value)) with
  | .error r => .error r
  | .ok t => .ok (withHost (advance t.host) t)

/-- `RD t, S[i]` (R64): HostRead into a Host variable, as an unsigned value, then the next statement. -/
def runRd (name : Nat) (cell : Expr) (sp : Space) (index : Expr) (s : State) : Except Fault State :=
  match hostRead s (hostLoc sp index s) with
  | .error r => .error r
  | .ok v => .ok (withHost (assignNext name (evalExpr s.host.vars cell) (uint v : Nat) s.host) s)

/-- One statement of the Host program (R64). -/
def runStmt (st : Stmt) (s : State) : Except Fault State :=
  match st with
  | .wr sp index value => runWr sp index value s
  | .rd name cell sp index => runRd name cell sp index s
  | .label _ => .ok (withHost (advance s.host) s)
  | .ifGoto c l => .ok (withHost (if evalCond s.host.vars c then jump l s.host else advance s.host) s)
  | .goto l => .ok (withHost (jump l s.host) s)
  | .assign name cell e =>
    .ok (withHost (assignNext name (evalExpr s.host.vars cell) (evalExpr s.host.vars e) s.host) s)
  | .halt => .ok (withHost { s.host with halted := true } s)

/-- The Host has a step when it has a next statement and has not executed HALT. -/
def HostAgent.running (h : HostAgent) : Bool := !h.halted && decide (h.pos < h.prog.length)

/-- One Host step: the next statement of its program (R4, R38, R64). -/
def hostStep (s : State) : Host.Outcome State Fault Refusal :=
  match s.host.prog[s.host.pos]? with
  | none => .fault .stuck
  | some st =>
    match runStmt st s with
    | .error r => .fault r
    | .ok t => .next t

/-- A plain Host variable: cell 0 of its name. -/
abbrev Expr.var (name : Nat) : Expr := .cell name (.int 0)

/-- `WR REG[i], v` with constants. -/
def wrReg (i : Nat) (v : Nat) : Stmt := .wr .reg (.int i) (.int v)

/-- `CMD m` (R65). -/
def macroCmd (i : Instr) : List Stmt := [wrReg 0 (uint (encode i))]

/-- `WAIT`, with a label and a variable of its own (R65). -/
def macroWait (l t : Nat) : List Stmt :=
  [.label l, .rd t (.int 0) .reg (.int 1), .ifGoto (.eq (.slice 0 0 (.var t)) (.int 1)) l]

/-- `RUN m` (R65). -/
def macroRun (i : Instr) (l t : Nat) : List Stmt := macroCmd i ++ macroWait l t

/-- `WR S[k], e k` for k = 0 .. n - 1. -/
def writeAll (sp : Space) (n : Nat) (e : Nat → Expr) : List Stmt :=
  (List.range n).map fun k : Nat => .wr sp (.int k) (e k)

/-- Element `k` of a listed value, as a Host constant. -/
def listed {w : Nat} (vs : List (BitVec w)) (k : Nat) : Expr := .int (uint (vs.getD k 0) : Nat)

/-- `LDSMP F` (R65) with `F` given by its 8192 expressions: constants (`listed F`) or the cells of a Host list variable
(`fun i => .cell F (.int i)`). R65 says only that `F` is a list of 8192 samples (DESIGN CHOICE: both, log 3). -/
def macroLdsmp (F : Nat → Expr) : List Stmt := writeAll .smp Config.npix F

/-- `LDPKD P` (R65) with `P` given by its 1024 expressions, as for `LDSMP`: constants, or the cells of a Host list variable
such as the one `RDPKD P` leaves (DESIGN CHOICE: both, log 3). -/
def macroLdpkd (P : Nat → Expr) : List Stmt := writeAll .pkd Config.nbytes P

/-- `RDPKD P` (R65): the list variable `P` takes the 1024 bytes of PKD. -/
def macroRdpkd (P : Nat) : List Stmt :=
  (List.range Config.nbytes).map fun k : Nat => .rd P (.int k) .pkd (.int k)

/-- `RD A[j], S[j]` for j = 0 .. n - 1, with `n` and `j` Host variables and two labels of its own. -/
def readList (A n j top out : Nat) (sp : Space) : List Stmt :=
  [.assign j (.int 0) (.int 0), .label top, .ifGoto (.eq (.var j) (.var n)) out,
   .rd A (.var j) sp (.var j), .assign j (.int 0) (.add (.var j) (.int 1)), .goto top, .label out]

/-- `RDLISTS A, B` (R65): `na` and `nb` take the counts, `A` and `B` the entries below them. -/
def macroRdlists (A B na nb j l0 l1 l2 l3 : Nat) : List Stmt :=
  .rd na (.int 0) .reg (.int 3) :: readList A na j l0 l1 .w2b ++
    .rd nb (.int 0) .reg (.int 4) :: readList B nb j l2 l3 .b2w

/-- `LOOKUPXY x, y` (R65): `x` and `y` expressions written as 16-bit two's complement words. -/
def macroLookupxy (x y : Expr) (l t : Nat) : List Stmt :=
  [.wr .reg (.int 5) x, .wr .reg (.int 6) y] ++ macroRun .lookup l t

/-- `ACKDONE` (R65). -/
def macroAckdone : List Stmt := [wrReg 1 0x0002]

/-- `CLRERR` (R65). -/
def macroClrerr : List Stmt := [wrReg 1 0x000C]

end Sys2Proof.Machine
end

