-- ==== Sys2Proof/Machine/Engine.lean ====
section
/-! DEFINITION. Whose turn it is, the Engine's step, and one turn of the machine (R13, R51, R92, R101, R113). -/

namespace Sys2Proof.Machine

/-- Whether a turn can be taken: after a fault no agent has a further step (R101); the Host while it has a next statement;
the Engine exactly when PHASE = BUSY (R92); reset always (R113). -/
def enabled (s : State) : Turn → Bool
  | .host => s.faultRecord.isEmpty && s.host.running
  | .engine => s.faultRecord.isEmpty && decide (s.phase = .busy)
  | .reset => true

/-- The next turn and the schedule after it: the first scheduled turn that can be taken. With none left the Engine
performs a pending command (weak fairness, R92), else the Host goes on (log 1); none when no agent has a step. -/
def chooseTurn (s : State) : List Turn → Option (Turn × List Turn)
  | t :: ts => if enabled s t then some (t, ts) else chooseTurn s ts
  | [] =>
    if enabled s .engine then some (.engine, [])
    else if enabled s .host then some (.host, [])
    else none

/-- The Engine's step: the whole pending command, atomically (R48, R92, R93). A CMD whose RSV is not 0, which R93 rules out,
is refused (DEDUCED, log 10). -/
def engineStep (s : State) : Host.Outcome State Fault Refusal :=
  match decode s.cmd with
  | .ok i => exec i s
  | .error _ => .refused (.pendingNoCommand s.cmd)

/-- One step of the machine (R13, R51): the next turn is taken off the schedule and performed; `stuck` when there is
none. -/
def takeTurn (s : State) : Host.Outcome State Fault Refusal :=
  match chooseTurn s s.schedule with
  | none => .fault .stuck
  | some (.host, ts) => hostStep (withSchedule ts s)
  | some (.engine, ts) => engineStep (withSchedule ts s)
  | some (.reset, ts) => .next (resetBlock (withSchedule ts s))

/-- The state in which the command word `w` is pending as an accepted CMD write leaves it (R91) and the Engine has the
next turn: nothing has faulted, and the Engine's turn comes first. -/
def pendingWord (w : BitVec 8) (s : State) : State :=
  { accept w s with faultRecord := [], schedule := .engine :: s.schedule }

end Sys2Proof.Machine
end

