-- ==== Sys2Proof/Machine/Step.lean ====
section
/-! DEFINITION. The step of the machine, and the placing of a command word for its next step. -/

namespace Sys2Proof.Machine

/-- One step of the machine: one turn (R13, R51). -/
def step (s : State) : Host.Outcome State Fault Refusal := takeTurn s

/-- `s` with an opcode-table word pending in CMD so that the very next step performs it (log 7). -/
def State.withFetchWord (s : State) (nbits w : Nat) : State := pendingWord (tableWord nbits w) s

end Sys2Proof.Machine
end

