-- ==== Sys2Proof/WellFormed.lean ====
section
/-! DEFINITION. Well-formedness: of a command (no check applies, R59), of a coordinate word (R61) and of a Host
program (R64). -/

namespace Sys2Proof

/-- A command carries no operand, so there is nothing to check (R59). -/
def Instr.wellFormed : Instr → Bool
  | .nop => true
  | .pack => true
  | .diff => true
  | .lookup => true
  | .clrprev => true

/-- A 16-bit word is a coordinate word exactly when its top three bits are 0 (R61). -/
def coordWordWellFormed (w : Half) : Bool := w.extractLsb' 13 3 == 0#3

/-- The labels a Host program defines, in order. -/
def Machine.definedLabels : List Machine.Stmt → List Nat
  | [] => []
  | .label l :: p => l :: definedLabels p
  | .wr _ _ _ :: p => definedLabels p
  | .rd _ _ _ _ :: p => definedLabels p
  | .ifGoto _ _ :: p => definedLabels p
  | .goto _ :: p => definedLabels p
  | .assign _ _ _ :: p => definedLabels p
  | .halt :: p => definedLabels p

/-- The labels a Host program jumps to, in order. -/
def Machine.usedLabels : List Machine.Stmt → List Nat
  | [] => []
  | .ifGoto _ l :: p => l :: usedLabels p
  | .goto l :: p => l :: usedLabels p
  | .label _ :: p => usedLabels p
  | .wr _ _ _ :: p => usedLabels p
  | .rd _ _ _ _ :: p => usedLabels p
  | .assign _ _ _ :: p => usedLabels p
  | .halt :: p => usedLabels p

/-- A Host program is well formed when no label is defined twice and every jump goes to a label it defines. -/
def Machine.progWellFormed (p : List Machine.Stmt) : Bool :=
  decide (Machine.definedLabels p).Nodup && (Machine.usedLabels p).all (Machine.definedLabels p).contains

end Sys2Proof
end

