-- ==== Sys2Proof/Safety.lean ====
section
/-! DEFINITION. What counts as a successful run (R127), the state a faulting step leaves (R101), the invariant of the
machine, and the vocabulary the claims use. -/

namespace Sys2Proof.Machine

/-- A run has ended successfully: the Host has executed HALT, PHASE = IDLE, nothing has faulted (R127). -/
abbrev State.successful (s : State) : Prop := s.host.halted = true ∧ s.phase = .idle ∧ s.faultRecord = []

/-- The state after one step, faults included: a fault is recorded and changes nothing else (R101; DESIGN CHOICE,
log 8). -/
def afterStep (s : State) : State :=
  match step s with
  | .next t => t
  | .fault r => recordFault r s
  | .refused _ => s

/-- Any number of steps that are all Host steps and do not stop (R51). -/
inductive HostSteps : State → State → Prop
  | none (s : State) : HostSteps s s
  | more {s t u : State} {ts : List Turn} (turn : chooseTurn s s.schedule = some (.host, ts))
      (first : step s = .next t) (rest : HostSteps t u) : HostSteps s u

/-- The memory holds exactly the listed values in elements 0, 1, … (all of them written, R33). -/
abbrev Memory.holds {w : Nat} (m : Memory w) (vs : List (BitVec w)) : Prop :=
  ∀ i < vs.length, Memory.read m i = vs[i]?

/-- A PackedFrame has 1024 bytes (R12). -/
abbrev isFrame (F : List Byte) : Prop := F.length = Config.nbytes

/-- LK_RES and LK_MASK are what LOOKUP leaves (R24, R25): valid with two zero bits and the mask of BIT, or all zero. -/
abbrev lookupConsistent (r : BitVec 16) (m : BitVec 8) : Prop :=
  if lkValid r then r.extractLsb' 13 2 = 0#2 ∧ m = BitVec.ofNat 8 (2 ^ lkBit r) else r = 0x0000#16 ∧ m = 0x00#8

/-- A list memory is what DIFF leaves (R30, R61, R74): entries exactly below the count, coordinate words, strictly
ascending. -/
abbrev listConsistent (m : Memory 16) (count : BitVec 14) : Prop :=
  m.map Prod.fst = List.range count.toNat ∧ (∀ e ∈ m, coordWordWellFormed e.2 = true) ∧
    (m.map (fun e => e.2.toNat)).Pairwise (· < ·)

/-- The invariant of the machine. Every step keeps it and reset meets it; it rules out states no run reaches. -/
structure State.Inv (s : State) : Prop where
  /-- CMD holds a command word (R19, R93). -/
  cmd : ∃ i, decode s.cmd = .ok i
  /-- The counts are 0 .. 8192, together at most 8192 (R22, R73). -/
  counts : s.w2bCnt.toNat + s.b2wCnt.toNat ≤ Config.npix
  /-- LK_RES and LK_MASK belong together (R24, R25). -/
  lookup : lookupConsistent s.lkRes s.lkMask
  /-- The memories are in canonical form (R27 to R31). -/
  smp : Memory.wf Config.npix none s.smp
  pkd : Memory.wf Config.nbytes none s.pkd
  prev : Memory.wf Config.nbytes (some 0x00#8) s.prev
  w2b : Memory.wf Config.npix none s.w2b
  b2w : Memory.wf Config.npix none s.b2w
  /-- The lists are those of a DIFF, or empty (R30, R31). -/
  w2bList : listConsistent s.w2b s.w2bCnt
  b2wList : listConsistent s.b2w s.b2wCnt
  /-- The two lists share no coordinate word (R75). -/
  disjoint : ∀ e ∈ s.w2b, ∀ f ∈ s.b2w, e.2 ≠ f.2
  /-- The fault record is a set of model faults (R34, R101). -/
  record : s.faultRecord.Nodup ∧ ∀ r ∈ s.faultRecord, r.isModelFault = true

/-- The raster indices of the pixels below `n` that `f` picks, ascending. -/
def pixelsWhere (n : Nat) (f : Nat → Bool) : List Nat := (List.range n).filter f

/-- The white-to-black pixels from `P` to `Q`, ascending (R73). -/
def whiteToBlack (P Q : List Byte) : List Nat :=
  pixelsWhere Config.npix (fun i => frameBit P i && !frameBit Q i)

/-- The black-to-white pixels from `P` to `Q`, ascending (R73). -/
def blackToWhite (P Q : List Byte) : List Nat :=
  pixelsWhere Config.npix (fun i => !frameBit P i && frameBit Q i)

/-- The raster indices in a list memory below a count, as the Host reads them out (R65, R81). -/
def listIndices (m : Memory 16) (count : BitVec 14) : List Nat :=
  (List.range count.toNat).map (fun j => ((Memory.read m j).getD 0#16).toNat)

/-- The entries a Host reads out after a DIFF: clears for W2B, sets for B2W (R78, R81). -/
def State.entries (s : State) : List PixelWrite :=
  pixelWrites (listIndices s.w2b s.w2bCnt, listIndices s.b2w s.b2wCnt)

/-- A Host and consumer that DIFF the frames in order with no CLRPREV between and apply each frame's entries to the
buffer `G` (R78, R121): the buffer after each frame; none if a DIFF stops. Loading a frame fills PKD (R28). -/
def replay : State → List Byte → List (List Byte) → Option (List (List Byte))
  | _, _, [] => some []
  | s, G, Q :: Qs =>
    match exec .diff { s with pkd := Memory.ofList Q } with
    | .next t =>
      let G' := t.entries.foldl applyPixel G
      match replay t G' Qs with
      | some Gs => some (G' :: Gs)
      | none => none
    | .fault _ => none
    | .refused _ => none

end Sys2Proof.Machine
end

