-- ==== Sys2Proof/Certificates/Slice0/Obligations.lean ====
section
/-! DEFINITION. The statements for the provers, from the numbered rules of spec/. -/

open Sys2Proof Sys2Proof.Machine

/-! ### Reset -/

/-- R35: after reset every piece of state holds the value of the table, whatever the state before; reset leaves the fault
record as it was. The state a run starts in is such a state, with an empty fault record. -/
def Obligations.ResetValues : Prop :=
  State.reset = resetBlock State.reset ∧ State.reset.faultRecord = [] ∧
  ∀ s t : State, t = resetBlock s →
    t.phase = .idle ∧ t.cmd = 0x00#8 ∧ statusWord t = 0x00#8 ∧ ctrlWord t = 0x00#8 ∧
    t.w2bCnt = 0#14 ∧ t.b2wCnt = 0#14 ∧ t.lkX = 0x0000#16 ∧ t.lkY = 0x0000#16 ∧
    t.lkRes = 0x0000#16 ∧ t.lkMask = 0x00#8 ∧
    (∀ i : BitVec 13, Memory.read t.smp i.toNat = none) ∧ (∀ k : BitVec 10, Memory.read t.pkd k.toNat = none) ∧
    (∀ k : BitVec 10, prevByte t.prev k.toNat = 0x00#8) ∧
    (∀ j : BitVec 13, Memory.read t.w2b j.toNat = none) ∧ (∀ j : BitVec 13, Memory.read t.b2w j.toNat = none) ∧
    irq t = false ∧ t.faultRecord = s.faultRecord

/-- R113, R114: a scheduled reset is taken from every state, BUSY or faulted: the block is `resetBlock`'s, so a pending
command is abandoned and DONE is not set. That the schedule says when reset comes is the model's choice (log 1). -/
def Obligations.ResetAbandonsPendingCommand : Prop :=
  ∀ (s : State) (ts : List Turn), s.schedule = .reset :: ts →
    step s = .next (resetBlock (withSchedule ts s)) ∧
    (resetBlock (withSchedule ts s)).phase = .idle ∧ (resetBlock (withSchedule ts s)).done = false

/-! ### Decoding -/

/-- R56: a word is a command exactly when RSV = 0 and OP is 0x0 to 0x4; the five rows of the opcode map. -/
def Obligations.OpcodeMap : Prop :=
  (∀ w : BitVec 8, (∃ i, decode w = .ok i) ↔ w.extractLsb' 4 4 = 0#4 ∧ (w.extractLsb' 0 4).toNat ≤ 4) ∧
  decode 0x00#8 = .ok .nop ∧ decode 0x01#8 = .ok .pack ∧ decode 0x02#8 = .ok .diff ∧
  decode 0x03#8 = .ok .lookup ∧ decode 0x04#8 = .ok .clrprev

/-- Decoding and encoding agree both ways, and every command is well formed. -/
def Obligations.DecodeEncodeAgree : Prop :=
  (∀ i : Instr, i.wellFormed = true ∧ decode (encode i) = .ok i) ∧ ∀ w i, decode w = .ok i → encode i = w

/-- R66: the decoding of a CMD write in full; bits 15:8 of the value play no part. -/
def Obligations.CmdWriteDecoding : Prop :=
  ∀ v : BitVec 16,
    (v.extractLsb' 4 4 ≠ 0#4 → decodeWrite v = .error (.reservedBits (v.extractLsb' 4 4))) ∧
    (v.extractLsb' 4 4 = 0#4 → 5 ≤ (v.extractLsb' 0 4).toNat →
      decodeWrite v = .error (.reservedOpcode (v.extractLsb' 0 4))) ∧
    (v.extractLsb' 4 4 = 0#4 → (v.extractLsb' 0 4).toNat ≤ 4 →
      ∃ i, decodeWrite v = .ok i ∧ (encode i).toNat = (v.extractLsb' 0 4).toNat)

/-! ### Command issue and control registers -/

/-- R89, R90, R91: a Host write to CMD is rejected as busy (only ERR_BUSY set), rejected as illegal (only ERR_ILLEGAL
set) or accepted (CMD takes the word, PHASE BUSY, DONE cleared), in this order, and changes nothing else. -/
def Obligations.CmdWriteClassified : Prop :=
  ∀ (s : State) (v : BitVec 16),
    (s.phase = .busy → hostWrite s (.reg 0#4) v = .ok { s with errBusy := true }) ∧
    (s.phase = .idle → (∀ i, decode (v.extractLsb' 0 8) ≠ .ok i) →
      hostWrite s (.reg 0#4) v = .ok { s with errIllegal := true }) ∧
    (s.phase = .idle → (∃ i, decode (v.extractLsb' 0 8) = .ok i) →
      hostWrite s (.reg 0#4) v = .ok { s with cmd := v.extractLsb' 0 8, phase := .busy, done := false })

/-- R95: a STATUS write clears exactly the flags at the bits 1, 2, 3 written with 1, sets none, and changes nothing
else, at any phase. -/
def Obligations.StatusWriteOneToClear : Prop :=
  ∀ (s : State) (v : BitVec 16), ∃ t, hostWrite s (.reg 1#4) v = .ok t ∧
    t = { s with done := t.done, errIllegal := t.errIllegal, errBusy := t.errBusy } ∧
    ∀ b : Nat, (statusWord t).getLsbD b =
      ((statusWord s).getLsbD b && !(decide (1 ≤ b) && decide (b ≤ 3) && v.getLsbD b))

/-- R96: a CTRL write stores bits 1:0, keeps bits 7:2 at 0 and changes nothing else, at any phase; the IRQ line follows
the new CTRL. -/
def Obligations.CtrlWriteStoresEnables : Prop :=
  ∀ (s : State) (v : BitVec 16), ∃ t, hostWrite s (.reg 2#4) v = .ok t ∧
    t = { s with ieDone := t.ieDone, ieErr := t.ieErr } ∧
    (ctrlWord t).extractLsb' 0 2 = v.extractLsb' 0 2 ∧ (ctrlWord t).extractLsb' 2 6 = 0#6 ∧
    irq t = ((s.done && v.getLsbD 0) || ((s.errIllegal || s.errBusy) && v.getLsbD 1))

/-- R97: while IDLE a write to LK_X or LK_Y stores all 16 bits and changes nothing else; while BUSY it is a hazard. -/
def Obligations.LookupOperandWrite : Prop :=
  ∀ (s : State) (v : BitVec 16),
    (s.phase = .idle → hostWrite s (.reg 5#4) v = .ok { s with lkX := v } ∧
      hostWrite s (.reg 6#4) v = .ok { s with lkY := v }) ∧
    (s.phase = .busy → hostWrite s (.reg 5#4) v = .error (.hazard (.reg 5#4)) ∧
      hostWrite s (.reg 6#4) v = .error (.hazard (.reg 6#4)))

/-- R41: while IDLE a Host write to a read-only location is ignored: no state changes and nothing faults. -/
def Obligations.ReadOnlyWritesIgnored : Prop :=
  ∀ s : State, s.phase = .idle →
    (∀ v, hostWrite s (.reg 3#4) v = .ok s) ∧ (∀ v, hostWrite s (.reg 4#4) v = .ok s) ∧
    (∀ v, hostWrite s (.reg 7#4) v = .ok s) ∧ (∀ v, hostWrite s (.reg 8#4) v = .ok s) ∧
    (∀ k v, hostWrite s (.prev k) v = .ok s) ∧ (∀ j v, hostWrite s (.w2b j) v = .ok s) ∧
    (∀ j v, hostWrite s (.b2w j) v = .ok s)

/-- R26: REG indices 9 to 15 read 0x0000 and ignore writes, at any phase, with no hazard and no fault. -/
def Obligations.ReservedRegisters : Prop :=
  ∀ (s : State) (i : BitVec 4), 9 ≤ i.toNat →
    hostRead s (.reg i) = .ok 0x0000#16 ∧ ∀ v, hostWrite s (.reg i) v = .ok s

/-- R43: while BUSY every Host access to a location of the blocked set faults with HAZARD naming the location; CMD, STATUS,
CTRL and the reserved registers stay accessible (R40). -/
def Obligations.BlockedSetFaultsWhileBusy : Prop :=
  ∀ (s : State) (l : Loc), s.phase = .busy →
    ((∀ i : BitVec 4, l = .reg i → 3 ≤ i.toNat ∧ i.toNat ≤ 8) →
      hostRead s l = .error (.hazard l) ∧ ∀ v, hostWrite s l v = .error (.hazard l)) ∧
    (∀ i : BitVec 4, l = .reg i → (i.toNat < 3 ∨ 8 < i.toNat) →
      (∃ x, hostRead s l = .ok x) ∧ ∀ v, ∃ t, hostWrite s l v = .ok t)

/-- R44: while IDLE a Host read of an unwritten element of SMP, PKD, W2B or B2W faults with UNINIT naming it, and a written
one reads as its value. -/
def Obligations.UnwrittenHostReadFaults : Prop :=
  ∀ s : State, s.phase = .idle →
    (∀ i : BitVec 13, hostRead s (.smp i) =
      match Memory.read s.smp i.toNat with | some v => .ok v | none => .error (.uninit .host (.smp i))) ∧
    (∀ k : BitVec 10, hostRead s (.pkd k) =
      match Memory.read s.pkd k.toNat with | some v => .ok v | none => .error (.uninit .host (.pkd k))) ∧
    (∀ j : BitVec 13, hostRead s (.w2b j) =
      match Memory.read s.w2b j.toNat with | some v => .ok v | none => .error (.uninit .host (.w2b j))) ∧
    (∀ j : BitVec 13, hostRead s (.b2w j) =
      match Memory.read s.b2w j.toNat with | some v => .ok v | none => .error (.uninit .host (.b2w j)))

/-- R39, R44: while IDLE a Host write to an element of SMP or PKD completes, the element reads back as the value
written, every other location of the block reads as before, and nothing but that memory changes. -/
def Obligations.HostMemoryWriteReadsBack : Prop :=
  ∀ s : State, s.phase = .idle →
    (∀ (i : BitVec 13) (v : BitVec 8), ∃ t, hostWrite s (.smp i) v = .ok t ∧ t = { s with smp := t.smp } ∧
      hostRead t (.smp i) = .ok v ∧ ∀ l : Loc, l ≠ .smp i → hostRead t l = hostRead s l) ∧
    (∀ (k : BitVec 10) (v : BitVec 8), ∃ t, hostWrite s (.pkd k) v = .ok t ∧ t = { s with pkd := t.pkd } ∧
      hostRead t (.pkd k) = .ok v ∧ ∀ l : Loc, l ≠ .pkd k → hostRead t l = hostRead s l)

/-- R18, R40: a Host read of a register returns `zext_16` of its value, register by register: CMD, STATUS and CTRL at any
phase, the others while IDLE, where PREV reads its byte. -/
def Obligations.RegisterReads : Prop :=
  ∀ s : State,
    hostRead s (.reg 0#4) = .ok (s.cmd.zeroExtend 16) ∧ hostRead s (.reg 1#4) = .ok ((statusWord s).zeroExtend 16) ∧
    hostRead s (.reg 2#4) = .ok ((ctrlWord s).zeroExtend 16) ∧
    (s.phase = .idle →
      hostRead s (.reg 3#4) = .ok (s.w2bCnt.zeroExtend 16) ∧ hostRead s (.reg 4#4) = .ok (s.b2wCnt.zeroExtend 16) ∧
      hostRead s (.reg 5#4) = .ok s.lkX ∧ hostRead s (.reg 6#4) = .ok s.lkY ∧ hostRead s (.reg 7#4) = .ok s.lkRes ∧
      hostRead s (.reg 8#4) = .ok (s.lkMask.zeroExtend 16) ∧
      ∀ k : BitVec 10, hostRead s (.prev k) = .ok (prevByte s.prev k.toNat))

/-- R20, R21, R102: the fields of STATUS and CTRL by bit number, BUSY is PHASE = BUSY, the reserved bits of both read 0,
and IRQ is the stated function of the two registers. -/
def Obligations.StatusFieldsAndInterrupt : Prop :=
  ∀ s : State,
    (statusWord s).getLsbD 0 = decide (s.phase = .busy) ∧ (statusWord s).getLsbD 1 = s.done ∧
    (statusWord s).getLsbD 2 = s.errIllegal ∧ (statusWord s).getLsbD 3 = s.errBusy ∧
    (statusWord s).extractLsb' 4 4 = 0#4 ∧ (ctrlWord s).getLsbD 0 = s.ieDone ∧ (ctrlWord s).getLsbD 1 = s.ieErr ∧
    (ctrlWord s).extractLsb' 2 6 = 0#6 ∧
    irq s = (((statusWord s).getLsbD 1 && (ctrlWord s).getLsbD 0) ||
      (((statusWord s).getLsbD 2 || (statusWord s).getLsbD 3) && (ctrlWord s).getLsbD 1))

/-! ### NOP -/

/-- R94, R92: NOP always completes: PHASE becomes IDLE, DONE is set, and nothing else changes. -/
def Obligations.NopCompletes : Prop :=
  ∀ s : State, exec .nop s = .next { s with phase := .idle, done := true }

/-! ### PACK -/

/-- R69: with every sample written PACK completes; bit `7 - j` of PKD byte `k` is the pixel of sample `8k + j`, PKD has
exactly its 1024 elements, and nothing but PKD, PHASE and DONE changes. -/
def Obligations.PackWritesPackedFrame : Prop :=
  ∀ s : State, (∀ i < 8192, Memory.read s.smp i ≠ none) →
    ∃ t, exec .pack s = .next t ∧ t = { s with phase := .idle, done := true, pkd := t.pkd } ∧
      (∀ k < 1024, ∀ j < 8, ∃ b v, Memory.read t.pkd k = some b ∧ Memory.read s.smp (8 * k + j) = some v ∧
        b.getLsbD (7 - j) = decide (v.toNat ≠ 0)) ∧
      ∀ k, 1024 ≤ k → Memory.read t.pkd k = none

/-- R69, R44: PACK faults exactly when a sample is unwritten, naming the first one in ascending order. -/
def Obligations.PackFaultsAtFirstUnwrittenSample : Prop :=
  ∀ (s : State) (r : Fault), exec .pack s = .fault r ↔
    ∃ i < 8192, Memory.read s.smp i = none ∧ (∀ j < i, Memory.read s.smp j ≠ none) ∧
      r = .uninit .engine (.smp (BitVec.ofNat 13 i))

/-- R70: for every SMP content with every element written, the PackedFrame PACK leaves unpacks to the pixels of the
samples; for samples 0 and 1 that is the loaded bit sequence itself; unpack is a bijection from the PackedFrames onto the
sequences of 8192 bits; and every PackedFrame is the PACK output of the frame it unpacks to. -/
def Obligations.PackUnpackRoundTrip : Prop :=
  (∀ (s : State) (S : List (BitVec 8)), S.length = 8192 → Memory.holds s.smp S →
    ∃ t F, exec .pack s = .next t ∧ isFrame F ∧ Memory.holds t.pkd F ∧ unpack F = S.map pix ∧
      ∀ i < 8192, some (frameBit F i) = (S[i]?).map pix) ∧
  (∀ (s : State) (seq : List Bool), seq.length = 8192 →
    Memory.holds s.smp (seq.map fun p => if p then 1#8 else 0#8) →
    ∃ t F, exec .pack s = .next t ∧ isFrame F ∧ Memory.holds t.pkd F ∧ unpack F = seq) ∧
  (∀ F G : List Byte, isFrame F → isFrame G → unpack F = unpack G → F = G) ∧
  (∀ F : List Byte, isFrame F → (unpack F).length = 8192) ∧
  (∀ seq : List Bool, seq.length = 8192 → ∃ F, isFrame F ∧ unpack F = seq) ∧
  (∀ (s : State) (F : List Byte), isFrame F →
    Memory.holds s.smp ((unpack F).map fun p => if p then 1#8 else 0#8) →
    ∃ t, exec .pack s = .next t ∧ Memory.holds t.pkd F)

/-- R71: after PACK the pixel at (x, y) is bit `7 - (x mod 8)` of PKD byte `16y + (x div 8)`. -/
def Obligations.PackPlacement : Prop :=
  ∀ s : State, (∀ i < 8192, Memory.read s.smp i ≠ none) → ∃ t, exec .pack s = .next t ∧
    ∀ x < 128, ∀ y < 64, ∃ b v, Memory.read t.pkd (16 * y + x / 8) = some b ∧
      Memory.read s.smp (128 * y + x) = some v ∧ b.getLsbD (7 - x % 8) = pix v

/-- R69: PACK run twice on unchanged SMP writes the same PKD. -/
def Obligations.PackIsRepeatable : Prop :=
  ∀ s t : State, exec .pack s = .next t → exec .pack t = .next t

/-! ### DIFF -/

/-- R73: with every PKD element written DIFF completes; with P the PREV before and Q the frame in PKD, W2B holds the
coordinate words of the pixels 1 in P and 0 in Q in ascending order and B2W those 0 in P and 1 in Q, the elements from
the count on are unwritten, the counts are the lengths, PREV is Q, and nothing else but PHASE and DONE changes. -/
def Obligations.DiffWritesTransitions : Prop :=
  ∀ (s : State) (Q : List Byte), isFrame Q → Memory.holds s.pkd Q →
    ∃ t, exec .diff s = .next t ∧
      t = { s with phase := .idle, done := true, w2b := t.w2b, b2w := t.b2w, w2bCnt := t.w2bCnt,
                   b2wCnt := t.b2wCnt, prev := t.prev } ∧
      (∀ j, Memory.read t.w2b j = ((whiteToBlack (prevFrame s.prev) Q)[j]?).map (BitVec.ofNat 16)) ∧
      (∀ j, Memory.read t.b2w j = ((blackToWhite (prevFrame s.prev) Q)[j]?).map (BitVec.ofNat 16)) ∧
      t.w2bCnt.toNat = (whiteToBlack (prevFrame s.prev) Q).length ∧
      t.b2wCnt.toNat = (blackToWhite (prevFrame s.prev) Q).length ∧
      ∀ k, prevByte t.prev k = Q.getD k 0x00#8

/-- R73, R44: DIFF faults exactly when an element of PKD is unwritten, naming the first one in ascending order. -/
def Obligations.DiffFaultsAtFirstUnwrittenByte : Prop :=
  ∀ (s : State) (r : Fault), exec .diff s = .fault r ↔
    ∃ k < 1024, Memory.read s.pkd k = none ∧ (∀ j < k, Memory.read s.pkd j ≠ none) ∧
      r = .uninit .engine (.pkd (BitVec.ofNat 10 k))

/-- R72: pixel i is white-to-black exactly when bit `7 - (i mod 8)` of the lane byte `P & ~Q` at `i div 8` is 1, and
black-to-white exactly when that bit of `~P & Q` is 1; the XOR byte is the union of the two, which are disjoint. -/
def Obligations.DiffComputesByteLanes : Prop :=
  ∀ (s t : State) (Q : List Byte), isFrame Q → Memory.holds s.pkd Q → exec .diff s = .next t →
    (∀ i < 8192, (∃ j, Memory.read t.w2b j = some (BitVec.ofNat 16 i)) ↔
      (prevByte s.prev (i / 8) &&& ~~~(Q.getD (i / 8) 0#8)).getLsbD (7 - i % 8) = true) ∧
    (∀ i < 8192, (∃ j, Memory.read t.b2w j = some (BitVec.ofNat 16 i)) ↔
      (~~~(prevByte s.prev (i / 8)) &&& Q.getD (i / 8) 0#8).getLsbD (7 - i % 8) = true) ∧
    ∀ k < 1024, prevByte s.prev k ^^^ Q.getD k 0#8 =
        (prevByte s.prev k &&& ~~~(Q.getD k 0#8)) ||| (~~~(prevByte s.prev k) &&& Q.getD k 0#8) ∧
      (prevByte s.prev k &&& ~~~(Q.getD k 0#8)) &&& (~~~(prevByte s.prev k) &&& Q.getD k 0#8) = 0#8

/-- R74: after DIFF both lists ascend strictly below their counts; as raster indices they are the changed pixels of each
kind in ascending order. -/
def Obligations.DiffListsAscend : Prop :=
  ∀ s t : State, exec .diff s = .next t →
    (∀ j k, j < k → k < t.w2bCnt.toNat → ∃ v w, Memory.read t.w2b j = some v ∧ Memory.read t.w2b k = some w ∧
      v.toNat < w.toNat) ∧
    (∀ j k, j < k → k < t.b2wCnt.toNat → ∃ v w, Memory.read t.b2w j = some v ∧ Memory.read t.b2w k = some w ∧
      v.toNat < w.toNat) ∧
    ∀ Q : List Byte, isFrame Q → Memory.holds s.pkd Q →
      listIndices t.w2b t.w2bCnt = whiteToBlack (prevFrame s.prev) Q ∧
      listIndices t.b2w t.b2wCnt = blackToWhite (prevFrame s.prev) Q

/-- R75: after DIFF the two lists are disjoint and together are exactly the pixels in which P and Q differ. -/
def Obligations.DiffListsPartitionChangedPixels : Prop :=
  ∀ (s t : State) (Q : List Byte), isFrame Q → Memory.holds s.pkd Q → exec .diff s = .next t →
    (∀ i, ¬(i ∈ listIndices t.w2b t.w2bCnt ∧ i ∈ listIndices t.b2w t.b2wCnt)) ∧
    ∀ i, (i ∈ listIndices t.w2b t.w2bCnt ∨ i ∈ listIndices t.b2w t.b2wCnt) ↔ i < 8192 ∧ frameBit (prevFrame s.prev) i ≠ frameBit Q i

/-- R76: the counts are the popcounts of `P & ~Q` and `~P & Q`, and their sum is the popcount of `P ^ Q`. -/
def Obligations.DiffCountsArePopcounts : Prop :=
  ∀ (s t : State) (Q : List Byte), isFrame Q → Memory.holds s.pkd Q → exec .diff s = .next t →
    t.w2bCnt.toNat = popcount (List.zipWith (fun p q => p &&& ~~~q) (prevFrame s.prev) Q) ∧
    t.b2wCnt.toNat = popcount (List.zipWith (fun p q => ~~~p &&& q) (prevFrame s.prev) Q) ∧
    t.w2bCnt.toNat + t.b2wCnt.toNat = popcount (List.zipWith (fun p q => p ^^^ q) (prevFrame s.prev) Q)

/-- R77: when PREV = PKD before DIFF, both counts are 0; so a second DIFF with PKD unchanged gives 0 and 0. -/
def Obligations.DiffIdempotent : Prop :=
  (∀ s t : State, Memory.holds s.pkd (prevFrame s.prev) → exec .diff s = .next t →
    t.w2bCnt = 0#14 ∧ t.b2wCnt = 0#14) ∧
  ∀ s t u : State, exec .diff s = .next t → exec .diff t = .next u → u.w2bCnt = 0#14 ∧ u.b2wCnt = 0#14

/-- R78: a buffer that holds P, to which the entries read out after the DIFF are applied in any order, equals Q. -/
def Obligations.DeltaCorrectness : Prop :=
  ∀ (s t : State) (Q : List Byte) (es : List PixelWrite), isFrame Q → Memory.holds s.pkd Q →
    exec .diff s = .next t → es.Perm t.entries → es.foldl applyPixel (prevFrame s.prev) = Q

/-- R78, second sentence: frames DIFFed in order from PREV all-zero, each frame's entries applied to a buffer that starts
all-zero, reproduce the frames. -/
def Obligations.SequentialReplayEquivalence : Prop :=
  ∀ (s : State) (Qs : List (List Byte)), prevFrame s.prev = zeroFrame → (∀ Q ∈ Qs, isFrame Q) →
    replay s zeroFrame Qs = some Qs

/-- R73, R30: after DIFF, back in IDLE, a Host read of a list element at or above the count faults with UNINIT, and below the
count it answers a coordinate word. -/
def Obligations.ListReadsEndAtCount : Prop :=
  ∀ s t : State, exec .diff s = .next t → ∀ j : BitVec 13,
    (t.w2bCnt.toNat ≤ j.toNat → hostRead t (.w2b j) = .error (.uninit .host (.w2b j))) ∧
    (j.toNat < t.w2bCnt.toNat → ∃ w, hostRead t (.w2b j) = .ok w ∧ coordWordWellFormed w = true) ∧
    (t.b2wCnt.toNat ≤ j.toNat → hostRead t (.b2w j) = .error (.uninit .host (.b2w j))) ∧
    (j.toNat < t.b2wCnt.toNat → ∃ w, hostRead t (.b2w j) = .ok w ∧ coordWordWellFormed w = true)

/-- R81, R61: entry j of a list, read as a coordinate word, is the (column, row) of its j-th changed pixel, in bounds, with
the top three bits 0. -/
def Obligations.ListEntriesAreCoordinates : Prop :=
  ∀ (s t : State) (Q : List Byte), isFrame Q → Memory.holds s.pkd Q → exec .diff s = .next t →
    ∀ (j : Nat) (w : BitVec 16),
      (Memory.read t.w2b j = some w → ∃ i, (whiteToBlack (prevFrame s.prev) Q)[j]? = some i ∧
        coordPair w = (i % 128, i / 128) ∧ i / 128 < 64 ∧ w.extractLsb' 13 3 = 0#3) ∧
      (Memory.read t.b2w j = some w → ∃ i, (blackToWhite (prevFrame s.prev) Q)[j]? = some i ∧
        coordPair w = (i % 128, i / 128) ∧ i / 128 < 64 ∧ w.extractLsb' 13 3 = 0#3)

/-- R82: DIFF's lists, counts and new PREV depend only on the frames in PKD and PREV. -/
def Obligations.DiffDependsOnFramesOnly : Prop :=
  ∀ (s t s' t' : State) (Q : List Byte), isFrame Q → Memory.holds s.pkd Q → Memory.holds s'.pkd Q →
    prevFrame s.prev = prevFrame s'.prev → exec .diff s = .next t → exec .diff s' = .next t' →
    t.w2b = t'.w2b ∧ t.b2w = t'.b2w ∧ t.w2bCnt = t'.w2bCnt ∧ t.b2wCnt = t'.b2wCnt ∧ t.prev = t'.prev

/-! ### CLRPREV -/

/-- R80: CLRPREV always completes; every byte of PREV reads 0x00 and nothing else but PHASE and DONE changes. -/
def Obligations.ClrprevBlackensPrev : Prop :=
  ∀ s : State, ∃ t, exec .clrprev s = .next t ∧ t = { s with phase := .idle, done := true, prev := t.prev } ∧
    ∀ k, prevByte t.prev k = 0x00#8

/-- R80, R115: a DIFF whose PREV is all-zero (after CLRPREV or reset) is a full frame against black: no white-to-black
entry, and B2W lists every white pixel of PKD in raster order. -/
def Obligations.DiffAgainstBlackIsFullFrame : Prop :=
  ∀ (s : State) (Q : List Byte), (∀ k < 1024, prevByte s.prev k = 0x00#8) → isFrame Q → Memory.holds s.pkd Q →
    ∃ t, exec .diff s = .next t ∧ t.w2bCnt = 0#14 ∧ listIndices t.b2w t.b2wCnt = pixelsWhere Config.npix (frameBit Q)

/-! ### LOOKUP -/

/-- R85, R83: LOOKUP of an in-bounds coordinate completes with VALID = 1, BYTE = 16y + (x div 8), BIT = 7 - (x mod 8),
two zero bits, and the mask 0x80 >> (x mod 8); nothing else but PHASE and DONE changes. -/
def Obligations.LookupInBounds : Prop :=
  ∀ (s : State) (x y : Nat), x < 128 → y < 64 → s.lkX.toInt = x → s.lkY.toInt = y →
    ∃ t, exec .lookup s = .next t ∧
      t = { s with phase := .idle, done := true, lkRes := t.lkRes, lkMask := t.lkMask } ∧
      t.lkRes.getLsbD 15 = true ∧ t.lkRes.extractLsb' 13 2 = 0#2 ∧
      (t.lkRes.extractLsb' 0 10).toNat = 16 * y + x / 8 ∧ (t.lkRes.extractLsb' 10 3).toNat = 7 - x % 8 ∧
      t.lkMask = 0x80#8 >>> (x % 8)

/-- R84, R83: LOOKUP of any other coordinate completes with LK_RES = 0x0000 and LK_MASK = 0x00; nothing else but PHASE and
DONE changes, so no error flag is set. -/
def Obligations.LookupOutOfBounds : Prop :=
  ∀ s : State, ¬(0 ≤ s.lkX.toInt ∧ s.lkX.toInt < 128 ∧ 0 ≤ s.lkY.toInt ∧ s.lkY.toInt < 64) →
    exec .lookup s = .next { s with phase := .idle, done := true, lkRes := 0x0000#16, lkMask := 0x00#8 }

/-- R86: for an in-bounds coordinate, the BYTE and BIT LOOKUP gives name the pixel in any PackedFrame, and the mask picks
it; so after PACK the bit is that of the sample. -/
def Obligations.LookupAgreesWithPacking : Prop :=
  (∀ (s t : State) (F : List Byte) (x y : Nat), x < 128 → y < 64 → s.lkX.toInt = x → s.lkY.toInt = y → isFrame F →
    exec .lookup s = .next t →
      frameBit F (128 * y + x) = (F.getD (lkByte t.lkRes) 0#8).getLsbD (lkBit t.lkRes) ∧
      (F.getD (lkByte t.lkRes) 0#8 &&& t.lkMask ≠ 0#8 ↔ frameBit F (128 * y + x) = true)) ∧
  ∀ (s t u : State) (x y : Nat), x < 128 → y < 64 → s.lkX.toInt = x → s.lkY.toInt = y →
    exec .pack s = .next t → exec .lookup t = .next u →
      ∃ b v, Memory.read u.pkd (lkByte u.lkRes) = some b ∧ Memory.read u.smp (128 * y + x) = some v ∧
        b.getLsbD (lkBit u.lkRes) = pix v

/-- R87: LOOKUP of the coordinates of a coordinate word is valid and gives BYTE = w[12:3], BIT = 7 - w[2:0]. -/
def Obligations.LookupAgreesWithCoordinateWords : Prop :=
  ∀ (s : State) (w : BitVec 16), coordWordWellFormed w = true →
    s.lkX = (w.extractLsb' 0 7).zeroExtend 16 → s.lkY = (w.extractLsb' 7 6).zeroExtend 16 →
    ∃ t, exec .lookup s = .next t ∧ lkValid t.lkRes = true ∧
      lkByte t.lkRes = (w.extractLsb' 3 10).toNat ∧ lkBit t.lkRes = 7 - (w.extractLsb' 0 3).toNat

/-- R88: a consumer that clears or sets with LOOKUP's BYTE and LK_MASK changes exactly the pixel at (x, y). -/
def Obligations.ConsumerWritesOnePixel : Prop :=
  ∀ (s t : State) (G : List Byte) (x y : Nat), x < 128 → y < 64 → s.lkX.toInt = x → s.lkY.toInt = y → isFrame G →
    exec .lookup s = .next t → ∀ j < 8192,
      frameBit (G.modify (lkByte t.lkRes) fun b => b &&& ~~~t.lkMask) j =
        (frameBit G j && !decide (j = 128 * y + x)) ∧
      frameBit (G.modify (lkByte t.lkRes) fun b => b ||| t.lkMask) j =
        (frameBit G j || decide (j = 128 * y + x))

/-! ### The Engine and the machine -/

/-- R92, R93: on the Engine's turn with nothing faulted and a command pending, the step is that command's meaning, with
the turn taken off the schedule; with no turn scheduled the pending command is performed next (the schedule is the
model's choice, log 1). -/
def Obligations.StepRunsPendingCommand : Prop :=
  ∀ (s : State) (i : Instr), s.faultRecord = [] → s.phase = .busy → decode s.cmd = .ok i →
    (∀ ts, s.schedule = .engine :: ts → step s = exec i (withSchedule ts s)) ∧
    (s.schedule = [] → step s = exec i s)

/-- A placed opcode-table word is what the very next step performs (the placing is the model's choice, log 7). -/
def Obligations.PlacedWordRunsNext : Prop :=
  ∀ (s : State) (nbits w : Nat) (i : Instr), decodeTableWord nbits w = some i →
    ∃ t, step (s.withFetchWord nbits w) = exec i t ∧ t = { s with cmd := t.cmd, phase := .busy, done := false, faultRecord := [] } ∧
      decode t.cmd = .ok i

/-- On the Host's turn the step performs the next statement of the Host program, with the turn taken off the schedule; with
no turn scheduled and no command pending the Host goes on (the Host as an agent in State and the schedule are the model's
choices, log 1 and log 2). -/
def Obligations.StepRunsHostStatement : Prop :=
  ∀ (s : State) (st : Stmt), s.faultRecord = [] → s.host.halted = false → s.host.prog[s.host.pos]? = some st →
    (∀ ts, s.schedule = .host :: ts →
      (∀ t, runStmt st (withSchedule ts s) = .ok t → step s = .next t) ∧
      (∀ r, runStmt st (withSchedule ts s) = .error r → step s = .fault r)) ∧
    (s.schedule = [] → s.phase = .idle →
      (∀ t, runStmt st s = .ok t → step s = .next t) ∧ (∀ r, runStmt st s = .error r → step s = .fault r))

/-- R59, R32: no command changes CMD, the error flags, CTRL, LK_X, LK_Y, SMP, the fault record, the Host or the
schedule; each that completes leaves PHASE = IDLE and DONE = 1; only PACK changes PKD, only DIFF the lists and counts,
only DIFF and CLRPREV PREV, only LOOKUP LK_RES and LK_MASK. -/
def Obligations.CommandsWriteOnlyTheirResults : Prop :=
  ∀ (i : Instr) (s t : State), exec i s = .next t →
    t.phase = .idle ∧ t.done = true ∧ t.cmd = s.cmd ∧ t.errIllegal = s.errIllegal ∧ t.errBusy = s.errBusy ∧
    ctrlWord t = ctrlWord s ∧ t.lkX = s.lkX ∧ t.lkY = s.lkY ∧ t.smp = s.smp ∧ t.faultRecord = s.faultRecord ∧
    t.host = s.host ∧ t.schedule = s.schedule ∧ (i ≠ .pack → t.pkd = s.pkd) ∧
    (i ≠ .diff → t.w2b = s.w2b ∧ t.b2w = s.b2w ∧ t.w2bCnt = s.w2bCnt ∧ t.b2wCnt = s.b2wCnt) ∧
    (i ≠ .diff → i ≠ .clrprev → t.prev = s.prev) ∧
    (i ≠ .lookup → t.lkRes = s.lkRes ∧ t.lkMask = s.lkMask)

/-- R92: only UNINIT can arise from a command, only in PACK and DIFF, and no command is refused. -/
def Obligations.OnlyUninitArisesFromCommands : Prop :=
  ∀ (i : Instr) (s : State), (∀ q, exec i s ≠ .refused q) ∧
    ∀ r, exec i s = .fault r →
      (i = .pack ∧ ∃ k, r = .uninit .engine (.smp k) ∧ Memory.read s.smp k.toNat = none) ∨
      (i = .diff ∧ ∃ k, r = .uninit .engine (.pkd k) ∧ Memory.read s.pkd k.toNat = none)

/-- R92, R59, R117: a pending command whose operands are written (SMP for PACK, PKD for DIFF, none for NOP, LOOKUP and
CLRPREV) completes on the Engine's turn: IDLE and DONE, the error flags kept (whose turn it is is the model's choice,
log 1). -/
def Obligations.PendingCommandCompletes : Prop :=
  ∀ (s : State) (i : Instr) (ts : List Turn), decode s.cmd = .ok i → s.faultRecord = [] → s.phase = .busy →
    (s.schedule = [] ∨ s.schedule = .engine :: ts) →
    (i = .pack → ∀ j < 8192, Memory.read s.smp j ≠ none) → (i = .diff → ∀ k < 1024, Memory.read s.pkd k ≠ none) →
    ∃ t, step s = .next t ∧ statusWord t = (statusWord s &&& 0x0C#8) ||| 0x02#8

/-- The invariant holds at reset. Its canonical form of the memories (log 9) and the fault record as a list without repeats
(log 8) are the model's choices of form. -/
def Obligations.InvariantAtReset : Prop := State.reset.Inv

/-- Every step keeps the invariant: CMD holds a command, the counts and lists are those of a DIFF, LK_RES and LK_MASK belong
together, every memory is in canonical form (a choice of form of the model, log 9), the fault record is a list without
repeats (log 8, likewise) of model faults. -/
def Obligations.StepKeepsInvariant : Prop := ∀ s t : State, s.Inv → step s = .next t → t.Inv

/-- R98, R16: the phase and CMD change only by the command protocol: IDLE to BUSY is a Host step that accepts a command
word, BUSY to IDLE is the Engine performing the command CMD names or a reset, and CMD changes only on acceptance or
reset (turns are the model's choice, log 1). -/
def Obligations.PhaseFollowsCommandProtocol : Prop :=
  ∀ s t : State, step s = .next t → ∃ u ts, chooseTurn s s.schedule = some (u, ts) ∧
    (s.phase = .idle → t.phase = .busy → u = .host ∧ t.done = false ∧ ∃ i, decode t.cmd = .ok i) ∧
    (s.phase = .busy → t.phase = .idle →
      u = .reset ∨ u = .engine ∧ ∃ i, decode s.cmd = .ok i ∧ exec i (withSchedule ts s) = .next t) ∧
    (t.cmd ≠ s.cmd → u = .reset ∨ u = .host ∧ s.phase = .idle ∧ t.phase = .busy)

/-- R79: a step that changes PREV is a reset or the Engine performing DIFF or CLRPREV (turns are the model's choice,
log 1). -/
def Obligations.PrevWrittenOnlyByDiffClrprevReset : Prop :=
  ∀ s t : State, step s = .next t → t.prev ≠ s.prev →
    ∃ u ts, chooseTurn s s.schedule = some (u, ts) ∧
      (u = .reset ∨ u = .engine ∧ (decode s.cmd = .ok .diff ∨ decode s.cmd = .ok .clrprev))

/-- R42: a Host read changes no state of the block: after a step that performs an `RD`, only the Host agent and the
schedule (the model's own fields, log 1 and log 2) differ, and every location reads as before. -/
def Obligations.HostReadsHaveNoSideEffect : Prop :=
  ∀ (s t : State) (name : Nat) (cell : Expr) (sp : Space) (index : Expr) (ts : List Turn),
    chooseTurn s s.schedule = some (.host, ts) → s.host.prog[s.host.pos]? = some (.rd name cell sp index) →
    step s = .next t → t = { s with host := t.host, schedule := ts } ∧ ∀ l : Loc, hostRead t l = hostRead s l

/-- R53, R90: while a command is pending, a Host step that does not fault leaves the command, its operands and every result
as they are: only the STATUS flags, CTRL, the Host and the schedule (log 1, log 2) can change, and PHASE stays BUSY. -/
def Obligations.HostCannotDisturbPendingCommand : Prop :=
  ∀ (s t : State) (ts : List Turn), s.phase = .busy → chooseTurn s s.schedule = some (.host, ts) → step s = .next t →
    t = { s with done := t.done, errIllegal := t.errIllegal, errBusy := t.errBusy, ieDone := t.ieDone,
                 ieErr := t.ieErr, host := t.host, schedule := ts }

/-- R53: a command acts on the operands as they were when it was issued: through any number of Host steps that do not
fault, the same command stays pending, and its results are those it would have had at once (turns are the model's choice,
log 1). -/
def Obligations.PendingCommandActsOnIssuedOperands : Prop :=
  ∀ (s u : State) (i : Instr), s.phase = .busy → decode s.cmd = .ok i → HostSteps s u →
    u.phase = .busy ∧ decode u.cmd = .ok i ∧
    ∀ t, exec i s = .next t → ∃ t', exec i u = .next t' ∧ t'.pkd = t.pkd ∧ t'.prev = t.prev ∧ t'.w2b = t.w2b ∧
      t'.b2w = t.b2w ∧ t'.w2bCnt = t.w2bCnt ∧ t'.b2wCnt = t.b2wCnt ∧ t'.lkRes = t.lkRes ∧ t'.lkMask = t.lkMask

/-- R101: after a model fault no agent has a further step: with no reset scheduled the machine is stuck (how the fault is
recorded and when a reset comes are the model's choices, log 1 and log 8). -/
def Obligations.FaultEndsTheRun : Prop :=
  ∀ (s : State) (r : Fault), step s = .fault r → r.isModelFault = true → .reset ∉ s.schedule →
    r ∈ (afterStep s).faultRecord ∧ afterStep s = { s with faultRecord := (afterStep s).faultRecord } ∧
    step (afterStep s) = .fault .stuck

/-- R13: a step answers `stuck` exactly when no reset is scheduled and no agent has an enabled step (the schedule and the
Host's position are the model's own, log 1 and log 2). -/
def Obligations.StuckExactlyWhenNoAgentEnabled : Prop :=
  ∀ s : State, step s = .fault .stuck ↔
    .reset ∉ s.schedule ∧
    (s.faultRecord ≠ [] ∨ (s.phase = .idle ∧ (s.host.halted = true ∨ s.host.prog.length ≤ s.host.pos)))

/-- R34: the fault record only grows, by any step, reset included (how a fault is recorded is the model's choice,
log 8). -/
def Obligations.FaultRecordOnlyGrows : Prop :=
  ∀ (s : State) (r : Fault), r ∈ s.faultRecord → r ∈ (afterStep s).faultRecord

/-- R99: ERR_ILLEGAL and ERR_BUSY are raised only by the Host: a step that sets one is a Host write to CMD (turns are the
model's choice, log 1). -/
def Obligations.ErrorFlagsRaisedOnlyByCmdWrites : Prop :=
  ∀ s t : State, step s = .next t →
    (t.errBusy = true ∧ s.errBusy = false ∨ t.errIllegal = true ∧ s.errIllegal = false) →
    ∃ ts index value, chooseTurn s s.schedule = some (.host, ts) ∧
      s.host.prog[s.host.pos]? = some (.wr .reg index value) ∧ Space.reg.loc (evalExpr s.host.vars index) = .reg 0#4 ∧
      (t.errBusy = true ∧ s.errBusy = false → s.phase = .busy) ∧
      (t.errIllegal = true ∧ s.errIllegal = false → s.phase = .idle)

/-- R64: `WR S[i], v` is HostWrite of the value and `RD t, S[i]` HostRead into the variable, each followed by the next
statement, and each stops only where the access faults; a label goes on; `IF c GOTO L` is `GOTO L` when c is true and goes on
when it is false; `GOTO L` jumps to the first statement `L:`; `t := e` assigns; `HALT` ends the program. A value the
element holds is offered as it is, an index inside the space names its element. Host expressions and variables, the first
of two equal labels and a label as a statement are the model's own form (log 3); a value that does not fit, an index
outside the space and a jump to no label of the program run with a free value (log 4), of which nothing is said. -/
def Obligations.HostStatementEffects : Prop :=
  (∀ (w : Nat) (z : Int), -(2 ^ (w - 1) : Int) ≤ z → z < 2 ^ w → toBits w z = BitVec.ofInt w z) ∧
  (∀ (sp : Space) (n : Nat), n < sp.size → sp.loc n = sp.elem n) ∧
  ∀ s : State,
    (∀ sp index value,
      (∀ t, hostWrite s (sp.loc (evalExpr s.host.vars index)) (toBits _ (evalExpr s.host.vars value)) = .ok t →
        runStmt (.wr sp index value) s = .ok { t with host := { t.host with pos := t.host.pos + 1 } }) ∧
      ∀ r, hostWrite s (sp.loc (evalExpr s.host.vars index)) (toBits _ (evalExpr s.host.vars value)) = .error r →
        runStmt (.wr sp index value) s = .error r) ∧
    (∀ name cell sp index,
      (∀ v, hostRead s (sp.loc (evalExpr s.host.vars index)) = .ok v →
        ∃ t, runStmt (.rd name cell sp index) s = .ok t ∧ t = { s with host := t.host } ∧
          t.host = { s.host with vars := t.host.vars, pos := s.host.pos + 1 } ∧
          ∀ key, lookupVar t.host.vars key =
            if key = (name, evalExpr s.host.vars cell) then some (v.toNat : Int) else lookupVar s.host.vars key) ∧
      ∀ r, hostRead s (sp.loc (evalExpr s.host.vars index)) = .error r →
        runStmt (.rd name cell sp index) s = .error r) ∧
    (∀ l, runStmt (.label l) s = .ok { s with host := { s.host with pos := s.host.pos + 1 } }) ∧
    (∀ c l, evalCond s.host.vars c = false →
      runStmt (.ifGoto c l) s = .ok { s with host := { s.host with pos := s.host.pos + 1 } }) ∧
    (∀ c l, evalCond s.host.vars c = true → runStmt (.ifGoto c l) s = runStmt (.goto l) s) ∧
    (∀ l before after, s.host.prog = before ++ .label l :: after → .label l ∉ before →
      runStmt (.goto l) s = .ok { s with host := { s.host with pos := before.length } }) ∧
    (∀ l, .label l ∉ s.host.prog → ∃ n, runStmt (.goto l) s = .ok { s with host := { s.host with pos := n } }) ∧
    (∀ name cell e, ∃ t, runStmt (.assign name cell e) s = .ok t ∧ t = { s with host := t.host } ∧
      t.host = { s.host with vars := t.host.vars, pos := s.host.pos + 1 } ∧
      ∀ key, lookupVar t.host.vars key = if key = (name, evalExpr s.host.vars cell) then some (evalExpr s.host.vars e)
        else lookupVar s.host.vars key) ∧
    runStmt .halt s = .ok { s with host := { s.host with halted := true } }

/-- R65: `WAIT` on the Host's turns: with PHASE = BUSY it is back at its label after three steps, with PHASE = IDLE it
falls through, and the block does not change (turns, log 1, and a label that takes a turn of its own, log 3, are the model's
choices). -/
def Obligations.WaitPollsBusy : Prop :=
  ∀ (s : State) (l v : Nat) (before after : List Stmt) (ts : List Turn),
    s.host.prog = before ++ macroWait l v ++ after → Stmt.label l ∉ before → s.host.pos = before.length →
    s.host.halted = false → s.faultRecord = [] → s.schedule = .host :: .host :: .host :: ts →
    ∃ t, Sys2Proof.core.run 3 s = .next t ∧ t = { s with host := t.host, schedule := ts } ∧
      t.host.pos = (if s.phase = .busy then before.length else before.length + 3)
end

