-- ==== Sys2Proof/Laws/Frame.lean ====
section
/-! SUPPORT. The laws of frames: packing and unpacking are inverse, transitions are the two filters of the raster order,
pixel writes change one pixel, and popcounts. -/

namespace Sys2Proof.Laws

open Sys2Proof.Machine

theorem eight_mul_nbytes : 8 * Config.nbytes = Config.npix := by decide

theorem length_unpack (F : List Byte) : (unpack F).length = 8 * F.length := by
  induction F with
  | nil => rfl
  | cons b F ih => simp only [unpack, List.flatMap_cons, List.length_append] at *; simp [byteBits, ih]; omega

theorem getElem?_byteBits (b : Byte) {j : Nat} (h : j < 8) : (byteBits b)[j]? = some (b.getLsbD (7 - j)) := by
  have : j = 0 ∨ j = 1 ∨ j = 2 ∨ j = 3 ∨ j = 4 ∨ j = 5 ∨ j = 6 ∨ j = 7 := by omega
  rcases this with rfl | rfl | rfl | rfl | rfl | rfl | rfl | rfl <;> rfl

/-- Element `i` of `unpack F` is the pixel at raster index `i`. -/
theorem getElem?_unpack (F : List Byte) {i : Nat} (h : i < 8 * F.length) :
    (unpack F)[i]? = some (frameBit F i) := by
  induction F generalizing i with
  | nil => simp at h
  | cons b F ih =>
    simp only [unpack, List.flatMap_cons]
    rcases Nat.lt_or_ge i 8 with hi | hi
    · rw [List.getElem?_append_left (by simpa [byteBits] using hi), getElem?_byteBits b hi]
      simp [frameBit, Nat.div_eq_of_lt hi, Nat.mod_eq_of_lt hi]
    · rw [List.getElem?_append_right (by simpa [byteBits] using hi)]
      have := ih (i := i - 8) (by simp at h; omega)
      simp only [unpack] at this
      simp only [show (byteBits b).length = 8 from rfl, this, frameBit]
      rw [show i / 8 = (i - 8) / 8 + 1 by omega, show (i - 8) % 8 = i % 8 by omega]
      simp

theorem frameBit_of_length_le {F : List Byte} {i : Nat} (h : 8 * F.length ≤ i) : frameBit F i = false := by
  simp only [frameBit, List.getD_eq_getElem?_getD]
  rw [List.getElem?_eq_none (by omega)]
  simp

/-- Two frames of one length with the same pixels are equal. -/
theorem frame_ext {F G : List Byte} (hl : F.length = G.length)
    (h : ∀ i < 8 * F.length, frameBit F i = frameBit G i) : F = G := by
  apply List.ext_getElem hl
  intro k hF hG
  apply BitVec.eq_of_getLsbD_eq
  intro j hj
  have := h (8 * k + (7 - j)) (by omega)
  simp only [frameBit, List.getD_eq_getElem?_getD] at this
  rw [show (8 * k + (7 - j)) / 8 = k by omega, show 7 - (8 * k + (7 - j)) % 8 = j by omega,
    List.getElem?_eq_getElem hF, List.getElem?_eq_getElem hG] at this
  simpa using this

theorem byteBits_append (p0 p1 p2 p3 p4 p5 p6 p7 : Bool) :
    byteBits (BitVec.ofBool p0 ++ BitVec.ofBool p1 ++ BitVec.ofBool p2 ++ BitVec.ofBool p3 ++
      BitVec.ofBool p4 ++ BitVec.ofBool p5 ++ BitVec.ofBool p6 ++ BitVec.ofBool p7)
      = [p0, p1, p2, p3, p4, p5, p6, p7] := by
  revert p0 p1 p2 p3 p4 p5 p6 p7; decide

theorem length_packBits (seq : List Bool) : (packBits seq).length = seq.length / 8 := by
  induction seq using packBits.induct with
  | case1 p0 p1 p2 p3 p4 p5 p6 p7 rest ih => simp [packBits, ih]; omega
  | case2 seq h =>
    have : seq.length < 8 := by
      rcases seq with _ | ⟨a, _ | ⟨b, _ | ⟨c, _ | ⟨d, _ | ⟨e, _ | ⟨f, _ | ⟨g, _ | ⟨k, r⟩⟩⟩⟩⟩⟩⟩⟩ <;>
        first | (exact absurd rfl (h _ _ _ _ _ _ _ _ _)) | simp
    rw [packBits]
    · simp [Nat.div_eq_of_lt this]
    · exact h

/-- `unpack(pack(seq)) = seq` for a whole number of bytes. -/
theorem unpack_packBits {seq : List Bool} (h : seq.length % 8 = 0) : unpack (packBits seq) = seq := by
  induction seq using packBits.induct with
  | case1 p0 p1 p2 p3 p4 p5 p6 p7 rest ih =>
    simp only [packBits, unpack, List.flatMap_cons, byteBits_append]
    have := ih (by simp at h; omega)
    simp only [unpack] at this
    rw [this]; rfl
  | case2 seq hne =>
    have : seq = [] := by
      rcases seq with _ | ⟨a, _ | ⟨b, _ | ⟨c, _ | ⟨d, _ | ⟨e, _ | ⟨f, _ | ⟨g, _ | ⟨k, r⟩⟩⟩⟩⟩⟩⟩⟩ <;>
        first | (exact absurd rfl (hne _ _ _ _ _ _ _ _ _)) | rfl | (simp at h)
    subst this; rfl

/-- `pack(unpack(F)) = F`. -/
theorem packBits_unpack (F : List Byte) : packBits (unpack F) = F := by
  have hl : (packBits (unpack F)).length = F.length := by rw [length_packBits, length_unpack]; omega
  refine frame_ext hl fun i hi => ?_
  have hu := unpack_packBits (seq := unpack F) (by rw [length_unpack]; omega)
  have h1 := getElem?_unpack (packBits (unpack F)) hi
  rw [hu, getElem?_unpack F (by omega)] at h1
  exact (Option.some.inj h1).symm

/-- The pixels of a packed sequence. -/
theorem frameBit_packBits {seq : List Bool} (h : seq.length % 8 = 0) {i : Nat} (hi : i < seq.length) :
    frameBit (packBits seq) i = seq[i] := by
  have := getElem?_unpack (packBits seq) (i := i) (by rw [length_packBits]; omega)
  rw [unpack_packBits h, List.getElem?_eq_getElem hi] at this
  exact (Option.some.inj this).symm

theorem transitions_eq (i : Nat) (ps cs : List Bool) (h : ps.length = cs.length) :
    transitions i ps cs =
      ((List.range' i ps.length).filter (fun k => ps.getD (k - i) false && !cs.getD (k - i) false),
       (List.range' i ps.length).filter (fun k => !ps.getD (k - i) false && cs.getD (k - i) false)) := by
  induction ps generalizing i cs with
  | nil => cases cs <;> simp [transitions]
  | cons p ps ih =>
    cases cs with
    | nil => simp at h
    | cons c cs =>
      have hl : ps.length = cs.length := by simpa using h
      have shift : ∀ f : Bool → Bool → Bool,
          (List.range' (i + 1) ps.length).filter
              (fun k => f ((p :: ps).getD (k - i) false) ((c :: cs).getD (k - i) false)) =
            (List.range' (i + 1) ps.length).filter
              (fun k => f (ps.getD (k - (i + 1)) false) (cs.getD (k - (i + 1)) false)) := by
        intro f
        apply List.filter_congr
        intro k hk
        have : i + 1 ≤ k := by simp [List.mem_range'] at hk; omega
        rw [show k - i = (k - (i + 1)) + 1 by omega]; simp
      simp only [transitions, ih (i + 1) cs hl, List.length_cons, List.range'_succ, List.filter_cons, Nat.sub_self,
        List.getD_cons_zero]
      rw [shift (fun a b => a && !b), shift (fun a b => !a && b)]
      cases p <;> cases c <;> simp

theorem transitions_unpack_of_length {P Q : List Byte} (h : P.length = Q.length) :
    transitions 0 (unpack P) (unpack Q) =
      (pixelsWhere (8 * P.length) (fun i => frameBit P i && !frameBit Q i),
       pixelsWhere (8 * P.length) (fun i => !frameBit P i && frameBit Q i)) := by
  have get : ∀ F : List Byte, ∀ k < 8 * F.length, (unpack F).getD k false = frameBit F k := by
    intro F k hk
    rw [List.getD_eq_getElem?_getD, getElem?_unpack F hk]; rfl
  rw [transitions_eq _ _ _ (by rw [length_unpack, length_unpack, h]), length_unpack, ← List.range_eq_range',
    Prod.mk.injEq]
  refine ⟨List.filter_congr fun k hk => ?_, List.filter_congr fun k hk => ?_⟩ <;>
  · have hk := List.mem_range.1 hk
    rw [Nat.sub_zero, get P k hk, get Q k (h ▸ hk)]

/-- DIFF's loop finds exactly the two kinds of changed pixels, each in ascending raster order. -/
theorem transitions_unpack {P Q : List Byte} (hP : isFrame P) (hQ : isFrame Q) :
    transitions 0 (unpack P) (unpack Q) = (whiteToBlack P Q, blackToWhite P Q) := by
  have h := transitions_unpack_of_length (hP.trans hQ.symm)
  rwa [show 8 * P.length = Config.npix by rw [hP, eight_mul_nbytes]] at h

theorem mem_whiteToBlack {P Q : List Byte} {i : Nat} :
    i ∈ whiteToBlack P Q ↔ i < Config.npix ∧ frameBit P i = true ∧ frameBit Q i = false := by
  simp [whiteToBlack, pixelsWhere]

theorem mem_blackToWhite {P Q : List Byte} {i : Nat} :
    i ∈ blackToWhite P Q ↔ i < Config.npix ∧ frameBit P i = false ∧ frameBit Q i = true := by
  simp [blackToWhite, pixelsWhere]

theorem whiteToBlack_lt {P Q : List Byte} {i : Nat} (h : i ∈ whiteToBlack P Q) : i < Config.npix :=
  (mem_whiteToBlack.1 h).1

theorem blackToWhite_lt {P Q : List Byte} {i : Nat} (h : i ∈ blackToWhite P Q) : i < Config.npix :=
  (mem_blackToWhite.1 h).1

theorem mem_pixelsWhere {n i : Nat} {f : Nat → Bool} : i ∈ pixelsWhere n f ↔ i < n ∧ f i = true := by
  simp [pixelsWhere]

theorem pixelsWhere_lt {n i : Nat} {f : Nat → Bool} (h : i ∈ pixelsWhere n f) : i < n := (mem_pixelsWhere.1 h).1

/-- The picked pixels ascend strictly. -/
theorem pixelsWhere_ascending (n : Nat) (f : Nat → Bool) : (pixelsWhere n f).Pairwise (· < ·) :=
  List.pairwise_lt_range.sublist List.filter_sublist

theorem whiteToBlack_ascending (P Q : List Byte) : (whiteToBlack P Q).Pairwise (· < ·) := pixelsWhere_ascending _ _

theorem blackToWhite_ascending (P Q : List Byte) : (blackToWhite P Q).Pairwise (· < ·) := pixelsWhere_ascending _ _

theorem length_pixelsWhere_le (n : Nat) (f : Nat → Bool) : (pixelsWhere n f).length ≤ n := by
  simpa [pixelsWhere] using List.length_filter_le f (List.range n)

theorem length_whiteToBlack_le (P Q : List Byte) : (whiteToBlack P Q).length ≤ Config.npix := length_pixelsWhere_le _ _

theorem length_blackToWhite_le (P Q : List Byte) : (blackToWhite P Q).length ≤ Config.npix := length_pixelsWhere_le _ _

/-- Two pickings that never pick the same pixel pick at most all of them. -/
theorem length_pixelsWhere_add_le {n : Nat} {f g : Nat → Bool} (h : ∀ i, ¬(f i = true ∧ g i = true)) :
    (pixelsWhere n f).length + (pixelsWhere n g).length ≤ n := by
  induction n with
  | zero => simp [pixelsWhere]
  | succ n ih =>
    simp only [pixelsWhere, List.range_succ, List.filter_append, List.length_append] at *
    have := h n
    cases hf : f n <;> cases hg : g n <;> simp_all <;> omega

/-- The two lists of a DIFF have at most 8192 entries together (R73). -/
theorem length_lists_le (P Q : List Byte) :
    (whiteToBlack P Q).length + (blackToWhite P Q).length ≤ Config.npix :=
  length_pixelsWhere_add_le fun i => by cases frameBit P i <;> cases frameBit Q i <;> simp

theorem pixelMask_getLsbD (i j : Nat) (hj : j < 8) : (pixelMask i).getLsbD j = decide (j = 7 - i % 8) := by
  simp only [pixelMask, BitVec.getLsbD_ofNat, hj, decide_true, Bool.true_and, Nat.testBit_two_pow]
  exact decide_eq_decide.2 eq_comm

theorem length_setPixel (G : List Byte) (i : Nat) : (setPixel G i).length = G.length := by simp [setPixel]

theorem length_clearPixel (G : List Byte) (i : Nat) : (clearPixel G i).length = G.length := by simp [clearPixel]

theorem length_applyPixel (G : List Byte) (e : PixelWrite) : (applyPixel G e).length = G.length := by
  simp only [applyPixel]; split <;> simp [length_setPixel, length_clearPixel]

theorem frameBit_modify (G : List Byte) (f : Byte → Byte) (k : Nat) {j : Nat} (hj : j < 8 * G.length) :
    frameBit (G.modify k f) j =
      if j / 8 = k then (f (G.getD (j / 8) 0#8)).getLsbD (7 - j % 8) else frameBit G j := by
  have hlt : j / 8 < G.length := by omega
  simp only [frameBit, List.getD_eq_getElem?_getD, List.getElem?_modify, List.getElem?_eq_getElem hlt]
  by_cases h : j / 8 = k
  · simp [h]
  · simp [h, Ne.symm h]

/-- One entry changes exactly its own pixel. -/
theorem frameBit_applyPixel (G : List Byte) (e : PixelWrite) {j : Nat} (hj : j < 8 * G.length) :
    frameBit (applyPixel G e) j = if j = e.1 then e.2 else frameBit G j := by
  obtain ⟨i, v⟩ := e
  have hmask := pixelMask_getLsbD i (7 - j % 8) (by omega)
  have hlt : j / 8 < G.length := by omega
  cases v
  · simp only [applyPixel, Bool.false_eq_true, if_false, clearPixel]
    rw [frameBit_modify G _ _ hj]
    by_cases hk : j / 8 = i / 8
    · simp only [hk, if_true, BitVec.getLsbD_and, BitVec.getLsbD_not, hmask, frameBit]
      by_cases he : j = i
      · subst he; simp
      · have : 7 - j % 8 ≠ 7 - i % 8 := by omega
        have h8 : 7 - j % 8 < 8 := by omega
        simp [he, this, h8]
    · rw [if_neg hk, if_neg (by rintro rfl; exact hk rfl)]
  · simp only [applyPixel, if_true, setPixel]
    rw [frameBit_modify G _ _ hj]
    by_cases hk : j / 8 = i / 8
    · simp only [hk, if_true, BitVec.getLsbD_or, hmask, frameBit]
      by_cases he : j = i
      · subst he; simp
      · have : 7 - j % 8 ≠ 7 - i % 8 := by omega
        simp [he, this]
    · rw [if_neg hk, if_neg (by rintro rfl; exact hk rfl)]

theorem length_foldl_applyPixel (es : List PixelWrite) (G : List Byte) :
    (es.foldl applyPixel G).length = G.length := by
  induction es generalizing G with
  | nil => rfl
  | cons e es ih => rw [List.foldl_cons, ih, length_applyPixel]

/-- A pixel no entry names keeps its value. -/
theorem frameBit_foldl_of_not_mem (es : List PixelWrite) (G : List Byte) {j : Nat} (hj : j < 8 * G.length)
    (h : ∀ e ∈ es, e.1 ≠ j) : frameBit (es.foldl applyPixel G) j = frameBit G j := by
  induction es generalizing G with
  | nil => rfl
  | cons e es ih =>
    rw [List.foldl_cons, ih _ (by rwa [length_applyPixel]) fun f hf => h f (List.mem_cons_of_mem _ hf),
      frameBit_applyPixel G e hj, if_neg fun hje => h e List.mem_cons_self hje.symm]

/-- A pixel that some entry names, all its entries giving it one value, takes that value. -/
theorem frameBit_foldl_of_mem (es : List PixelWrite) (G : List Byte) {j : Nat} (hj : j < 8 * G.length) {v : Bool}
    (hm : (j, v) ∈ es) (h : ∀ e ∈ es, e.1 = j → e.2 = v) : frameBit (es.foldl applyPixel G) j = v := by
  induction es generalizing G with
  | nil => simp at hm
  | cons e es ih =>
    have hj' : j < 8 * (applyPixel G e).length := by rwa [length_applyPixel]
    rw [List.foldl_cons]
    by_cases hin : (j, v) ∈ es
    · exact ih _ hj' hin fun f hf => h f (List.mem_cons_of_mem _ hf)
    · have he : e = (j, v) := by
        rcases List.mem_cons.1 hm with he | he
        · exact he.symm
        · exact absurd he hin
      rw [frameBit_foldl_of_not_mem es _ hj', frameBit_applyPixel G e hj, he, if_pos rfl]
      intro f hf hfj
      refine hin ?_
      have hv := h f (List.mem_cons_of_mem _ hf) hfj
      have : f = (j, v) := Prod.ext hfj hv
      exact this ▸ hf

theorem mem_pixelWrites {lists : List Nat × List Nat} {e : PixelWrite} :
    e ∈ pixelWrites lists ↔ (e.1 ∈ lists.1 ∧ e.2 = false) ∨ (e.1 ∈ lists.2 ∧ e.2 = true) := by
  obtain ⟨i, v⟩ := e
  simp only [pixelWrites, List.mem_append, List.mem_map, Prod.mk.injEq]
  constructor
  · rintro (⟨a, ha, rfl, rfl⟩ | ⟨a, ha, rfl, rfl⟩)
    · exact .inl ⟨ha, rfl⟩
    · exact .inr ⟨ha, rfl⟩
  · rintro (⟨h, rfl⟩ | ⟨h, rfl⟩)
    · exact .inl ⟨i, h, rfl, rfl⟩
    · exact .inr ⟨i, h, rfl, rfl⟩

theorem count_unpack_eq (F : List Byte) :
    (unpack F).count true = ((List.range (8 * F.length)).filter (frameBit F)).length := by
  have : unpack F = (List.range (8 * F.length)).map (frameBit F) := by
    apply List.ext_getElem?
    intro i
    rcases Nat.lt_or_ge i (8 * F.length) with h | h
    · rw [getElem?_unpack F h]; simp [h]
    · rw [List.getElem?_eq_none (by rw [length_unpack]; exact h), List.getElem?_eq_none (by simpa using h)]
  rw [this, List.count, List.countP_map, List.countP_eq_length_filter]
  congr 1
  apply List.filter_congr
  intro k _
  simp

/-- A frame's popcount is the number of its white pixels. -/
theorem popcount_eq {F : List Byte} (hF : isFrame F) : popcount F = (pixelsWhere Config.npix (frameBit F)).length := by
  have h8 : 8 * F.length = Config.npix := by rw [hF, eight_mul_nbytes]
  rw [popcount, count_unpack_eq, h8, pixelsWhere]

theorem frameBit_zipWith (f : Byte → Byte → Byte) {P Q : List Byte} (h : P.length = Q.length) {i : Nat}
    (hi : i < 8 * P.length) :
    frameBit (List.zipWith f P Q) i = (f (P.getD (i / 8) 0#8) (Q.getD (i / 8) 0#8)).getLsbD (7 - i % 8) := by
  have hP : i / 8 < P.length := by omega
  have hQ : i / 8 < Q.length := by omega
  simp [frameBit, List.getD_eq_getElem?_getD, List.getElem?_zipWith, List.getElem?_eq_getElem hP,
    List.getElem?_eq_getElem hQ]

end Sys2Proof.Laws
end

