-- ==== Sys2Proof/Laws/Memory.lean ====
section
/-! SUPPORT. The laws of the memory operations: reading back, canonical form, reading a whole memory. -/

namespace Sys2Proof.Laws

open Sys2Proof.Machine

variable {w : Nat}

theorem read_write_same (m : Memory w) (i : Nat) (v : BitVec w) :
    Memory.read (Memory.write m i v) i = some v := by
  induction m with
  | nil => simp [Memory.write, Memory.read]
  | cons e m ih =>
    obtain ⟨a, u⟩ := e
    simp only [Memory.write]
    split
    · simp [Memory.read]
    · split
      · simp [Memory.read]
      · simp [Memory.read, *]

theorem read_write_other (m : Memory w) {i j : Nat} (h : j ≠ i) (v : BitVec w) :
    Memory.read (Memory.write m i v) j = Memory.read m j := by
  induction m with
  | nil => simp [Memory.write, Memory.read, h]
  | cons e m ih =>
    obtain ⟨a, u⟩ := e
    simp only [Memory.write]
    split
    · simp [Memory.read, h]
    · split
      · subst_vars; simp [Memory.read, h]
      · simp [Memory.read, ih]

theorem mem_write {m : Memory w} {i : Nat} {v : BitVec w} {e : Nat × BitVec w}
    (h : e ∈ Memory.write m i v) : e = (i, v) ∨ e ∈ m := by
  induction m with
  | nil => simpa [Memory.write] using h
  | cons f m ih =>
    obtain ⟨a, u⟩ := f
    simp only [Memory.write] at h
    split at h
    · simpa using h
    · split at h
      · rcases List.mem_cons.1 h with h | h
        · exact .inl h
        · exact .inr (List.mem_cons_of_mem _ h)
      · rcases List.mem_cons.1 h with h | h
        · exact .inr (h ▸ List.mem_cons_self)
        · rcases ih h with h | h
          · exact .inl h
          · exact .inr (List.mem_cons_of_mem _ h)

/-- A write of a value that is not the blank keeps the canonical form. -/
theorem write_wf {m : Memory w} {size i : Nat} {blank : Option (BitVec w)} {v : BitVec w}
    (hm : Memory.wf size blank m) (hi : i < size) (hv : some v ≠ blank) :
    Memory.wf size blank (Memory.write m i v) := by
  refine ⟨?_, fun e he => ?_⟩
  · have hs := hm.1
    clear hm
    induction m with
    | nil => simp [Memory.write]
    | cons f m ih =>
      obtain ⟨a, u⟩ := f
      simp only [List.map_cons, List.pairwise_cons, List.mem_map, forall_exists_index, and_imp,
        forall_apply_eq_imp_iff₂] at hs
      simp only [Memory.write]
      split
      · rename_i hlt
        simp only [List.map_cons, List.pairwise_cons, List.mem_cons, List.mem_map, forall_eq_or_imp,
          forall_exists_index, and_imp, forall_apply_eq_imp_iff₂]
        exact ⟨⟨hlt, fun b hb => lt_trans hlt (hs.1 b hb)⟩, hs.1, hs.2⟩
      · split
        · subst_vars
          simp only [List.map_cons, List.pairwise_cons, List.mem_map, forall_exists_index, and_imp,
            forall_apply_eq_imp_iff₂]
          exact hs
        · simp only [List.map_cons, List.pairwise_cons, List.mem_map, forall_exists_index, and_imp,
            forall_apply_eq_imp_iff₂]
          refine ⟨fun b hb => ?_, ih hs.2⟩
          rcases mem_write hb with rfl | hb
          · simp only; omega
          · exact hs.1 b hb
  · rcases mem_write he with rfl | he
    · exact ⟨hi, hv⟩
    · exact hm.2 e he

theorem read_ofListFrom (vs : List (BitVec w)) (k i : Nat) :
    Memory.read (Memory.ofListFrom k vs) i = if k ≤ i then vs[i - k]? else none := by
  induction vs generalizing k with
  | nil => simp [Memory.ofListFrom, Memory.read]
  | cons v vs ih =>
    simp only [Memory.ofListFrom, Memory.read, ih]
    split
    · subst_vars; simp
    · split
      · rw [if_pos (by omega), show i - k = (i - (k + 1)) + 1 by omega, List.getElem?_cons_succ]
      · rw [if_neg (by omega)]

/-- Reading a memory that holds a list. -/
theorem read_ofList (vs : List (BitVec w)) (i : Nat) : Memory.read (Memory.ofList vs) i = vs[i]? := by
  simp [Memory.ofList, read_ofListFrom]

theorem map_fst_ofListFrom (vs : List (BitVec w)) (k : Nat) :
    (Memory.ofListFrom k vs).map Prod.fst = List.range' k vs.length := by
  induction vs generalizing k with
  | nil => rfl
  | cons v vs ih => simp [Memory.ofListFrom, ih, List.range'_succ]

theorem map_fst_ofList (vs : List (BitVec w)) :
    (Memory.ofList vs).map Prod.fst = List.range vs.length := by
  rw [Memory.ofList, map_fst_ofListFrom, List.range_eq_range']

theorem map_snd_ofListFrom (vs : List (BitVec w)) (k : Nat) :
    (Memory.ofListFrom k vs).map Prod.snd = vs := by
  induction vs generalizing k with
  | nil => rfl
  | cons v vs ih => simp [Memory.ofListFrom, ih]

theorem map_snd_ofList (vs : List (BitVec w)) : (Memory.ofList vs).map Prod.snd = vs :=
  map_snd_ofListFrom vs 0

theorem mem_ofList_lt {vs : List (BitVec w)} {e : Nat × BitVec w} (h : e ∈ Memory.ofList vs) :
    e.1 < vs.length := by
  have := List.mem_map_of_mem (f := Prod.fst) h
  rw [map_fst_ofList] at this
  exact List.mem_range.1 this

/-- A memory made from a list that fits is in canonical form. -/
theorem ofList_wf {vs : List (BitVec w)} {size : Nat} (h : vs.length ≤ size) :
    Memory.wf size none (Memory.ofList vs) := by
  refine ⟨?_, fun e he => ⟨lt_of_lt_of_le (mem_ofList_lt he) h, by simp⟩⟩
  rw [map_fst_ofList]
  exact List.pairwise_lt_range

/-- An answer of `readFrom` is the list of the values read. -/
theorem readFrom_eq_ok {m : Memory w} {i n : Nat} {vs : List (BitVec w)} :
    Memory.readFrom m i n = .ok vs ↔ vs.length = n ∧ ∀ j < n, Memory.read m (i + j) = vs[j]? := by
  induction n generalizing i vs with
  | zero => simp [Memory.readFrom, eq_comm]
  | succ n ih =>
    simp only [Memory.readFrom]
    constructor
    · intro h
      split at h
      · simp at h
      · rename_i v hv
        split at h
        · simp at h
        · rename_i us hus
          simp only [Except.ok.injEq] at h
          subst h
          obtain ⟨hl, hr⟩ := ih.1 hus
          refine ⟨by simp [hl], fun j hj => ?_⟩
          cases j with
          | zero => simpa using hv
          | succ j => simpa [Nat.add_assoc, Nat.add_comm, Nat.add_left_comm] using hr j (by omega)
    · rintro ⟨hl, hr⟩
      cases vs with
      | nil => simp at hl
      | cons v us =>
        have h0 := hr 0 (by omega)
        simp only [Nat.add_zero, List.getElem?_cons_zero] at h0
        have hus : Memory.readFrom m (i + 1) n = .ok us := ih.2
          ⟨by simpa using hl, fun j hj => by
            have := hr (j + 1) (by omega)
            rwa [List.getElem?_cons_succ, ← Nat.add_assoc, Nat.add_right_comm] at this⟩
        rw [h0, hus]

/-- `readFrom` fails at the first unwritten element. -/
theorem readFrom_eq_error {m : Memory w} {i n k : Nat} :
    Memory.readFrom m i n = .error k ↔
      i ≤ k ∧ k < i + n ∧ Memory.read m k = none ∧ ∀ j, i ≤ j → j < k → Memory.read m j ≠ none := by
  induction n generalizing i with
  | zero => simp [Memory.readFrom]; omega
  | succ n ih =>
    simp only [Memory.readFrom]
    cases hv : Memory.read m i with
    | none =>
      simp only [Except.error.injEq]
      constructor
      · rintro rfl; exact ⟨le_refl _, by omega, hv, fun j h1 h2 => by omega⟩
      · rintro ⟨h1, -, -, h4⟩
        by_contra hne
        exact h4 i (le_refl _) (by omega) hv
    | some v =>
      refine Iff.trans (b := Memory.readFrom m (i + 1) n = .error k)
        (by cases Memory.readFrom m (i + 1) n <;> simp) ?_
      rw [ih]
      constructor
      · rintro ⟨h1, h2, h3, h4⟩
        refine ⟨by omega, by omega, h3, fun j hj hk => ?_⟩
        rcases Nat.lt_or_ge i j with h | h
        · exact h4 j h hk
        · obtain rfl : j = i := by omega
          simp [hv]
      · rintro ⟨h1, h2, h3, h4⟩
        have : i ≠ k := by rintro rfl; simp [hv] at h3
        exact ⟨by omega, by omega, h3, fun j hj hk => h4 j (by omega) hk⟩

/-- A memory made from a list reads back as that list. -/
theorem readFrom_ofList (vs : List (BitVec w)) : Memory.readFrom (Memory.ofList vs) 0 vs.length = .ok vs :=
  readFrom_eq_ok.2 ⟨rfl, fun j _ => by simp [read_ofList]⟩

theorem length_prevFrame (m : Memory 8) : (prevFrame m).length = Config.nbytes := by simp [prevFrame]

theorem getElem?_prevFrame (m : Memory 8) {k : Nat} (h : k < Config.nbytes) :
    (prevFrame m)[k]? = some (prevByte m k) := by simp [prevFrame, h]

theorem read_filter_ofListFrom (F : List Byte) (j k : Nat) :
    (Memory.read ((Memory.ofListFrom j F).filter (fun e => e.2 != 0x00#8)) k).getD 0#8 =
      if j ≤ k then F.getD (k - j) 0#8 else 0#8 := by
  induction F generalizing j with
  | nil => simp [Memory.ofListFrom, Memory.read]
  | cons b F ih =>
    simp only [Memory.ofListFrom, List.filter_cons]
    split
    · simp only [Memory.read]
      split
      · subst_vars; simp
      · rw [ih]
        split
        · rw [if_pos (by omega), show k - j = (k - (j + 1)) + 1 by omega]; simp
        · rw [if_neg (by omega)]
    · rename_i hb
      simp only [bne_iff_ne, ne_eq, not_not] at hb
      rw [ih]
      subst hb
      split
      · rw [if_pos (by omega), show k - j = (k - (j + 1)) + 1 by omega]; simp
      · split
        · obtain rfl : j = k := by omega
          simp
        · rfl

/-- PREV reads back the frame written to it. -/
theorem prevByte_prevOfFrame (F : List Byte) (k : Nat) : prevByte (prevOfFrame F) k = F.getD k 0#8 := by
  simpa [prevByte, prevOfFrame, Memory.ofList] using read_filter_ofListFrom F 0 k

/-- PREV holds exactly the frame written to it. -/
theorem prevFrame_prevOfFrame {F : List Byte} (h : F.length = Config.nbytes) : prevFrame (prevOfFrame F) = F := by
  apply List.ext_getElem?
  intro k
  rcases Nat.lt_or_ge k Config.nbytes with hk | hk
  · rw [getElem?_prevFrame _ hk, prevByte_prevOfFrame, List.getD_eq_getElem?_getD,
      List.getElem?_eq_getElem (by omega)]
    rfl
  · rw [List.getElem?_eq_none (by rw [length_prevFrame]; exact hk), List.getElem?_eq_none (by omega)]

/-- A frame written to PREV leaves it in canonical form: no entry holds 0x00. -/
theorem prevOfFrame_wf {F : List Byte} (h : F.length ≤ Config.nbytes) :
    Memory.wf Config.nbytes (some 0x00#8) (prevOfFrame F) := by
  obtain ⟨hs, hm⟩ := ofList_wf h
  refine ⟨?_, fun e he => ?_⟩
  · exact hs.sublist (List.Sublist.map _ List.filter_sublist)
  · obtain ⟨he, hz⟩ := List.mem_filter.1 he
    exact ⟨(hm e he).1, by simpa using hz⟩

end Sys2Proof.Laws
end

