-- ==== Sys2Proof/Laws/State.lean ====
section
/-! SUPPORT. What every named state update does to every field of State: one lemma per field per update. -/

namespace Sys2Proof.Laws

open Sys2Proof.Machine

@[simp] theorem accept_phase (w : BitVec 8) (s : State) : (accept w s).phase = .busy := rfl
@[simp] theorem accept_cmd (w : BitVec 8) (s : State) : (accept w s).cmd = w := rfl
@[simp] theorem accept_done (w : BitVec 8) (s : State) : (accept w s).done = false := rfl
@[simp] theorem accept_errIllegal (w : BitVec 8) (s : State) : (accept w s).errIllegal = s.errIllegal := rfl
@[simp] theorem accept_errBusy (w : BitVec 8) (s : State) : (accept w s).errBusy = s.errBusy := rfl
@[simp] theorem accept_ieDone (w : BitVec 8) (s : State) : (accept w s).ieDone = s.ieDone := rfl
@[simp] theorem accept_ieErr (w : BitVec 8) (s : State) : (accept w s).ieErr = s.ieErr := rfl
@[simp] theorem accept_w2bCnt (w : BitVec 8) (s : State) : (accept w s).w2bCnt = s.w2bCnt := rfl
@[simp] theorem accept_b2wCnt (w : BitVec 8) (s : State) : (accept w s).b2wCnt = s.b2wCnt := rfl
@[simp] theorem accept_lkX (w : BitVec 8) (s : State) : (accept w s).lkX = s.lkX := rfl
@[simp] theorem accept_lkY (w : BitVec 8) (s : State) : (accept w s).lkY = s.lkY := rfl
@[simp] theorem accept_lkRes (w : BitVec 8) (s : State) : (accept w s).lkRes = s.lkRes := rfl
@[simp] theorem accept_lkMask (w : BitVec 8) (s : State) : (accept w s).lkMask = s.lkMask := rfl
@[simp] theorem accept_smp (w : BitVec 8) (s : State) : (accept w s).smp = s.smp := rfl
@[simp] theorem accept_pkd (w : BitVec 8) (s : State) : (accept w s).pkd = s.pkd := rfl
@[simp] theorem accept_prev (w : BitVec 8) (s : State) : (accept w s).prev = s.prev := rfl
@[simp] theorem accept_w2b (w : BitVec 8) (s : State) : (accept w s).w2b = s.w2b := rfl
@[simp] theorem accept_b2w (w : BitVec 8) (s : State) : (accept w s).b2w = s.b2w := rfl
@[simp] theorem accept_faultRecord (w : BitVec 8) (s : State) : (accept w s).faultRecord = s.faultRecord := rfl
@[simp] theorem accept_host (w : BitVec 8) (s : State) : (accept w s).host = s.host := rfl
@[simp] theorem accept_schedule (w : BitVec 8) (s : State) : (accept w s).schedule = s.schedule := rfl

@[simp] theorem rejectBusy_phase (s : State) : (rejectBusy s).phase = s.phase := rfl
@[simp] theorem rejectBusy_cmd (s : State) : (rejectBusy s).cmd = s.cmd := rfl
@[simp] theorem rejectBusy_done (s : State) : (rejectBusy s).done = s.done := rfl
@[simp] theorem rejectBusy_errIllegal (s : State) : (rejectBusy s).errIllegal = s.errIllegal := rfl
@[simp] theorem rejectBusy_errBusy (s : State) : (rejectBusy s).errBusy = true := rfl
@[simp] theorem rejectBusy_ieDone (s : State) : (rejectBusy s).ieDone = s.ieDone := rfl
@[simp] theorem rejectBusy_ieErr (s : State) : (rejectBusy s).ieErr = s.ieErr := rfl
@[simp] theorem rejectBusy_w2bCnt (s : State) : (rejectBusy s).w2bCnt = s.w2bCnt := rfl
@[simp] theorem rejectBusy_b2wCnt (s : State) : (rejectBusy s).b2wCnt = s.b2wCnt := rfl
@[simp] theorem rejectBusy_lkX (s : State) : (rejectBusy s).lkX = s.lkX := rfl
@[simp] theorem rejectBusy_lkY (s : State) : (rejectBusy s).lkY = s.lkY := rfl
@[simp] theorem rejectBusy_lkRes (s : State) : (rejectBusy s).lkRes = s.lkRes := rfl
@[simp] theorem rejectBusy_lkMask (s : State) : (rejectBusy s).lkMask = s.lkMask := rfl
@[simp] theorem rejectBusy_smp (s : State) : (rejectBusy s).smp = s.smp := rfl
@[simp] theorem rejectBusy_pkd (s : State) : (rejectBusy s).pkd = s.pkd := rfl
@[simp] theorem rejectBusy_prev (s : State) : (rejectBusy s).prev = s.prev := rfl
@[simp] theorem rejectBusy_w2b (s : State) : (rejectBusy s).w2b = s.w2b := rfl
@[simp] theorem rejectBusy_b2w (s : State) : (rejectBusy s).b2w = s.b2w := rfl
@[simp] theorem rejectBusy_faultRecord (s : State) : (rejectBusy s).faultRecord = s.faultRecord := rfl
@[simp] theorem rejectBusy_host (s : State) : (rejectBusy s).host = s.host := rfl
@[simp] theorem rejectBusy_schedule (s : State) : (rejectBusy s).schedule = s.schedule := rfl

@[simp] theorem rejectIllegal_phase (s : State) : (rejectIllegal s).phase = s.phase := rfl
@[simp] theorem rejectIllegal_cmd (s : State) : (rejectIllegal s).cmd = s.cmd := rfl
@[simp] theorem rejectIllegal_done (s : State) : (rejectIllegal s).done = s.done := rfl
@[simp] theorem rejectIllegal_errIllegal (s : State) : (rejectIllegal s).errIllegal = true := rfl
@[simp] theorem rejectIllegal_errBusy (s : State) : (rejectIllegal s).errBusy = s.errBusy := rfl
@[simp] theorem rejectIllegal_ieDone (s : State) : (rejectIllegal s).ieDone = s.ieDone := rfl
@[simp] theorem rejectIllegal_ieErr (s : State) : (rejectIllegal s).ieErr = s.ieErr := rfl
@[simp] theorem rejectIllegal_w2bCnt (s : State) : (rejectIllegal s).w2bCnt = s.w2bCnt := rfl
@[simp] theorem rejectIllegal_b2wCnt (s : State) : (rejectIllegal s).b2wCnt = s.b2wCnt := rfl
@[simp] theorem rejectIllegal_lkX (s : State) : (rejectIllegal s).lkX = s.lkX := rfl
@[simp] theorem rejectIllegal_lkY (s : State) : (rejectIllegal s).lkY = s.lkY := rfl
@[simp] theorem rejectIllegal_lkRes (s : State) : (rejectIllegal s).lkRes = s.lkRes := rfl
@[simp] theorem rejectIllegal_lkMask (s : State) : (rejectIllegal s).lkMask = s.lkMask := rfl
@[simp] theorem rejectIllegal_smp (s : State) : (rejectIllegal s).smp = s.smp := rfl
@[simp] theorem rejectIllegal_pkd (s : State) : (rejectIllegal s).pkd = s.pkd := rfl
@[simp] theorem rejectIllegal_prev (s : State) : (rejectIllegal s).prev = s.prev := rfl
@[simp] theorem rejectIllegal_w2b (s : State) : (rejectIllegal s).w2b = s.w2b := rfl
@[simp] theorem rejectIllegal_b2w (s : State) : (rejectIllegal s).b2w = s.b2w := rfl
@[simp] theorem rejectIllegal_faultRecord (s : State) : (rejectIllegal s).faultRecord = s.faultRecord := rfl
@[simp] theorem rejectIllegal_host (s : State) : (rejectIllegal s).host = s.host := rfl
@[simp] theorem rejectIllegal_schedule (s : State) : (rejectIllegal s).schedule = s.schedule := rfl

@[simp] theorem complete_phase (s : State) : (complete s).phase = .idle := rfl
@[simp] theorem complete_cmd (s : State) : (complete s).cmd = s.cmd := rfl
@[simp] theorem complete_done (s : State) : (complete s).done = true := rfl
@[simp] theorem complete_errIllegal (s : State) : (complete s).errIllegal = s.errIllegal := rfl
@[simp] theorem complete_errBusy (s : State) : (complete s).errBusy = s.errBusy := rfl
@[simp] theorem complete_ieDone (s : State) : (complete s).ieDone = s.ieDone := rfl
@[simp] theorem complete_ieErr (s : State) : (complete s).ieErr = s.ieErr := rfl
@[simp] theorem complete_w2bCnt (s : State) : (complete s).w2bCnt = s.w2bCnt := rfl
@[simp] theorem complete_b2wCnt (s : State) : (complete s).b2wCnt = s.b2wCnt := rfl
@[simp] theorem complete_lkX (s : State) : (complete s).lkX = s.lkX := rfl
@[simp] theorem complete_lkY (s : State) : (complete s).lkY = s.lkY := rfl
@[simp] theorem complete_lkRes (s : State) : (complete s).lkRes = s.lkRes := rfl
@[simp] theorem complete_lkMask (s : State) : (complete s).lkMask = s.lkMask := rfl
@[simp] theorem complete_smp (s : State) : (complete s).smp = s.smp := rfl
@[simp] theorem complete_pkd (s : State) : (complete s).pkd = s.pkd := rfl
@[simp] theorem complete_prev (s : State) : (complete s).prev = s.prev := rfl
@[simp] theorem complete_w2b (s : State) : (complete s).w2b = s.w2b := rfl
@[simp] theorem complete_b2w (s : State) : (complete s).b2w = s.b2w := rfl
@[simp] theorem complete_faultRecord (s : State) : (complete s).faultRecord = s.faultRecord := rfl
@[simp] theorem complete_host (s : State) : (complete s).host = s.host := rfl
@[simp] theorem complete_schedule (s : State) : (complete s).schedule = s.schedule := rfl

@[simp] theorem writeStatus_phase (v : BitVec 16) (s : State) : (writeStatus v s).phase = s.phase := rfl
@[simp] theorem writeStatus_cmd (v : BitVec 16) (s : State) : (writeStatus v s).cmd = s.cmd := rfl
@[simp] theorem writeStatus_done (v : BitVec 16) (s : State) : (writeStatus v s).done = (s.done && !v.getLsbD 1) := rfl
@[simp] theorem writeStatus_errIllegal (v : BitVec 16) (s : State) : (writeStatus v s).errIllegal = (s.errIllegal && !v.getLsbD 2) := rfl
@[simp] theorem writeStatus_errBusy (v : BitVec 16) (s : State) : (writeStatus v s).errBusy = (s.errBusy && !v.getLsbD 3) := rfl
@[simp] theorem writeStatus_ieDone (v : BitVec 16) (s : State) : (writeStatus v s).ieDone = s.ieDone := rfl
@[simp] theorem writeStatus_ieErr (v : BitVec 16) (s : State) : (writeStatus v s).ieErr = s.ieErr := rfl
@[simp] theorem writeStatus_w2bCnt (v : BitVec 16) (s : State) : (writeStatus v s).w2bCnt = s.w2bCnt := rfl
@[simp] theorem writeStatus_b2wCnt (v : BitVec 16) (s : State) : (writeStatus v s).b2wCnt = s.b2wCnt := rfl
@[simp] theorem writeStatus_lkX (v : BitVec 16) (s : State) : (writeStatus v s).lkX = s.lkX := rfl
@[simp] theorem writeStatus_lkY (v : BitVec 16) (s : State) : (writeStatus v s).lkY = s.lkY := rfl
@[simp] theorem writeStatus_lkRes (v : BitVec 16) (s : State) : (writeStatus v s).lkRes = s.lkRes := rfl
@[simp] theorem writeStatus_lkMask (v : BitVec 16) (s : State) : (writeStatus v s).lkMask = s.lkMask := rfl
@[simp] theorem writeStatus_smp (v : BitVec 16) (s : State) : (writeStatus v s).smp = s.smp := rfl
@[simp] theorem writeStatus_pkd (v : BitVec 16) (s : State) : (writeStatus v s).pkd = s.pkd := rfl
@[simp] theorem writeStatus_prev (v : BitVec 16) (s : State) : (writeStatus v s).prev = s.prev := rfl
@[simp] theorem writeStatus_w2b (v : BitVec 16) (s : State) : (writeStatus v s).w2b = s.w2b := rfl
@[simp] theorem writeStatus_b2w (v : BitVec 16) (s : State) : (writeStatus v s).b2w = s.b2w := rfl
@[simp] theorem writeStatus_faultRecord (v : BitVec 16) (s : State) : (writeStatus v s).faultRecord = s.faultRecord := rfl
@[simp] theorem writeStatus_host (v : BitVec 16) (s : State) : (writeStatus v s).host = s.host := rfl
@[simp] theorem writeStatus_schedule (v : BitVec 16) (s : State) : (writeStatus v s).schedule = s.schedule := rfl

@[simp] theorem writeCtrl_phase (v : BitVec 16) (s : State) : (writeCtrl v s).phase = s.phase := rfl
@[simp] theorem writeCtrl_cmd (v : BitVec 16) (s : State) : (writeCtrl v s).cmd = s.cmd := rfl
@[simp] theorem writeCtrl_done (v : BitVec 16) (s : State) : (writeCtrl v s).done = s.done := rfl
@[simp] theorem writeCtrl_errIllegal (v : BitVec 16) (s : State) : (writeCtrl v s).errIllegal = s.errIllegal := rfl
@[simp] theorem writeCtrl_errBusy (v : BitVec 16) (s : State) : (writeCtrl v s).errBusy = s.errBusy := rfl
@[simp] theorem writeCtrl_ieDone (v : BitVec 16) (s : State) : (writeCtrl v s).ieDone = v.getLsbD 0 := rfl
@[simp] theorem writeCtrl_ieErr (v : BitVec 16) (s : State) : (writeCtrl v s).ieErr = v.getLsbD 1 := rfl
@[simp] theorem writeCtrl_w2bCnt (v : BitVec 16) (s : State) : (writeCtrl v s).w2bCnt = s.w2bCnt := rfl
@[simp] theorem writeCtrl_b2wCnt (v : BitVec 16) (s : State) : (writeCtrl v s).b2wCnt = s.b2wCnt := rfl
@[simp] theorem writeCtrl_lkX (v : BitVec 16) (s : State) : (writeCtrl v s).lkX = s.lkX := rfl
@[simp] theorem writeCtrl_lkY (v : BitVec 16) (s : State) : (writeCtrl v s).lkY = s.lkY := rfl
@[simp] theorem writeCtrl_lkRes (v : BitVec 16) (s : State) : (writeCtrl v s).lkRes = s.lkRes := rfl
@[simp] theorem writeCtrl_lkMask (v : BitVec 16) (s : State) : (writeCtrl v s).lkMask = s.lkMask := rfl
@[simp] theorem writeCtrl_smp (v : BitVec 16) (s : State) : (writeCtrl v s).smp = s.smp := rfl
@[simp] theorem writeCtrl_pkd (v : BitVec 16) (s : State) : (writeCtrl v s).pkd = s.pkd := rfl
@[simp] theorem writeCtrl_prev (v : BitVec 16) (s : State) : (writeCtrl v s).prev = s.prev := rfl
@[simp] theorem writeCtrl_w2b (v : BitVec 16) (s : State) : (writeCtrl v s).w2b = s.w2b := rfl
@[simp] theorem writeCtrl_b2w (v : BitVec 16) (s : State) : (writeCtrl v s).b2w = s.b2w := rfl
@[simp] theorem writeCtrl_faultRecord (v : BitVec 16) (s : State) : (writeCtrl v s).faultRecord = s.faultRecord := rfl
@[simp] theorem writeCtrl_host (v : BitVec 16) (s : State) : (writeCtrl v s).host = s.host := rfl
@[simp] theorem writeCtrl_schedule (v : BitVec 16) (s : State) : (writeCtrl v s).schedule = s.schedule := rfl

@[simp] theorem writeLkX_phase (v : BitVec 16) (s : State) : (writeLkX v s).phase = s.phase := rfl
@[simp] theorem writeLkX_cmd (v : BitVec 16) (s : State) : (writeLkX v s).cmd = s.cmd := rfl
@[simp] theorem writeLkX_done (v : BitVec 16) (s : State) : (writeLkX v s).done = s.done := rfl
@[simp] theorem writeLkX_errIllegal (v : BitVec 16) (s : State) : (writeLkX v s).errIllegal = s.errIllegal := rfl
@[simp] theorem writeLkX_errBusy (v : BitVec 16) (s : State) : (writeLkX v s).errBusy = s.errBusy := rfl
@[simp] theorem writeLkX_ieDone (v : BitVec 16) (s : State) : (writeLkX v s).ieDone = s.ieDone := rfl
@[simp] theorem writeLkX_ieErr (v : BitVec 16) (s : State) : (writeLkX v s).ieErr = s.ieErr := rfl
@[simp] theorem writeLkX_w2bCnt (v : BitVec 16) (s : State) : (writeLkX v s).w2bCnt = s.w2bCnt := rfl
@[simp] theorem writeLkX_b2wCnt (v : BitVec 16) (s : State) : (writeLkX v s).b2wCnt = s.b2wCnt := rfl
@[simp] theorem writeLkX_lkX (v : BitVec 16) (s : State) : (writeLkX v s).lkX = v := rfl
@[simp] theorem writeLkX_lkY (v : BitVec 16) (s : State) : (writeLkX v s).lkY = s.lkY := rfl
@[simp] theorem writeLkX_lkRes (v : BitVec 16) (s : State) : (writeLkX v s).lkRes = s.lkRes := rfl
@[simp] theorem writeLkX_lkMask (v : BitVec 16) (s : State) : (writeLkX v s).lkMask = s.lkMask := rfl
@[simp] theorem writeLkX_smp (v : BitVec 16) (s : State) : (writeLkX v s).smp = s.smp := rfl
@[simp] theorem writeLkX_pkd (v : BitVec 16) (s : State) : (writeLkX v s).pkd = s.pkd := rfl
@[simp] theorem writeLkX_prev (v : BitVec 16) (s : State) : (writeLkX v s).prev = s.prev := rfl
@[simp] theorem writeLkX_w2b (v : BitVec 16) (s : State) : (writeLkX v s).w2b = s.w2b := rfl
@[simp] theorem writeLkX_b2w (v : BitVec 16) (s : State) : (writeLkX v s).b2w = s.b2w := rfl
@[simp] theorem writeLkX_faultRecord (v : BitVec 16) (s : State) : (writeLkX v s).faultRecord = s.faultRecord := rfl
@[simp] theorem writeLkX_host (v : BitVec 16) (s : State) : (writeLkX v s).host = s.host := rfl
@[simp] theorem writeLkX_schedule (v : BitVec 16) (s : State) : (writeLkX v s).schedule = s.schedule := rfl

@[simp] theorem writeLkY_phase (v : BitVec 16) (s : State) : (writeLkY v s).phase = s.phase := rfl
@[simp] theorem writeLkY_cmd (v : BitVec 16) (s : State) : (writeLkY v s).cmd = s.cmd := rfl
@[simp] theorem writeLkY_done (v : BitVec 16) (s : State) : (writeLkY v s).done = s.done := rfl
@[simp] theorem writeLkY_errIllegal (v : BitVec 16) (s : State) : (writeLkY v s).errIllegal = s.errIllegal := rfl
@[simp] theorem writeLkY_errBusy (v : BitVec 16) (s : State) : (writeLkY v s).errBusy = s.errBusy := rfl
@[simp] theorem writeLkY_ieDone (v : BitVec 16) (s : State) : (writeLkY v s).ieDone = s.ieDone := rfl
@[simp] theorem writeLkY_ieErr (v : BitVec 16) (s : State) : (writeLkY v s).ieErr = s.ieErr := rfl
@[simp] theorem writeLkY_w2bCnt (v : BitVec 16) (s : State) : (writeLkY v s).w2bCnt = s.w2bCnt := rfl
@[simp] theorem writeLkY_b2wCnt (v : BitVec 16) (s : State) : (writeLkY v s).b2wCnt = s.b2wCnt := rfl
@[simp] theorem writeLkY_lkX (v : BitVec 16) (s : State) : (writeLkY v s).lkX = s.lkX := rfl
@[simp] theorem writeLkY_lkY (v : BitVec 16) (s : State) : (writeLkY v s).lkY = v := rfl
@[simp] theorem writeLkY_lkRes (v : BitVec 16) (s : State) : (writeLkY v s).lkRes = s.lkRes := rfl
@[simp] theorem writeLkY_lkMask (v : BitVec 16) (s : State) : (writeLkY v s).lkMask = s.lkMask := rfl
@[simp] theorem writeLkY_smp (v : BitVec 16) (s : State) : (writeLkY v s).smp = s.smp := rfl
@[simp] theorem writeLkY_pkd (v : BitVec 16) (s : State) : (writeLkY v s).pkd = s.pkd := rfl
@[simp] theorem writeLkY_prev (v : BitVec 16) (s : State) : (writeLkY v s).prev = s.prev := rfl
@[simp] theorem writeLkY_w2b (v : BitVec 16) (s : State) : (writeLkY v s).w2b = s.w2b := rfl
@[simp] theorem writeLkY_b2w (v : BitVec 16) (s : State) : (writeLkY v s).b2w = s.b2w := rfl
@[simp] theorem writeLkY_faultRecord (v : BitVec 16) (s : State) : (writeLkY v s).faultRecord = s.faultRecord := rfl
@[simp] theorem writeLkY_host (v : BitVec 16) (s : State) : (writeLkY v s).host = s.host := rfl
@[simp] theorem writeLkY_schedule (v : BitVec 16) (s : State) : (writeLkY v s).schedule = s.schedule := rfl

@[simp] theorem writeSmp_phase (i : Nat) (v : BitVec Config.sampleW) (s : State) : (writeSmp i v s).phase = s.phase := rfl
@[simp] theorem writeSmp_cmd (i : Nat) (v : BitVec Config.sampleW) (s : State) : (writeSmp i v s).cmd = s.cmd := rfl
@[simp] theorem writeSmp_done (i : Nat) (v : BitVec Config.sampleW) (s : State) : (writeSmp i v s).done = s.done := rfl
@[simp] theorem writeSmp_errIllegal (i : Nat) (v : BitVec Config.sampleW) (s : State) : (writeSmp i v s).errIllegal = s.errIllegal := rfl
@[simp] theorem writeSmp_errBusy (i : Nat) (v : BitVec Config.sampleW) (s : State) : (writeSmp i v s).errBusy = s.errBusy := rfl
@[simp] theorem writeSmp_ieDone (i : Nat) (v : BitVec Config.sampleW) (s : State) : (writeSmp i v s).ieDone = s.ieDone := rfl
@[simp] theorem writeSmp_ieErr (i : Nat) (v : BitVec Config.sampleW) (s : State) : (writeSmp i v s).ieErr = s.ieErr := rfl
@[simp] theorem writeSmp_w2bCnt (i : Nat) (v : BitVec Config.sampleW) (s : State) : (writeSmp i v s).w2bCnt = s.w2bCnt := rfl
@[simp] theorem writeSmp_b2wCnt (i : Nat) (v : BitVec Config.sampleW) (s : State) : (writeSmp i v s).b2wCnt = s.b2wCnt := rfl
@[simp] theorem writeSmp_lkX (i : Nat) (v : BitVec Config.sampleW) (s : State) : (writeSmp i v s).lkX = s.lkX := rfl
@[simp] theorem writeSmp_lkY (i : Nat) (v : BitVec Config.sampleW) (s : State) : (writeSmp i v s).lkY = s.lkY := rfl
@[simp] theorem writeSmp_lkRes (i : Nat) (v : BitVec Config.sampleW) (s : State) : (writeSmp i v s).lkRes = s.lkRes := rfl
@[simp] theorem writeSmp_lkMask (i : Nat) (v : BitVec Config.sampleW) (s : State) : (writeSmp i v s).lkMask = s.lkMask := rfl
@[simp] theorem writeSmp_smp (i : Nat) (v : BitVec Config.sampleW) (s : State) : (writeSmp i v s).smp = Memory.write s.smp i v := rfl
@[simp] theorem writeSmp_pkd (i : Nat) (v : BitVec Config.sampleW) (s : State) : (writeSmp i v s).pkd = s.pkd := rfl
@[simp] theorem writeSmp_prev (i : Nat) (v : BitVec Config.sampleW) (s : State) : (writeSmp i v s).prev = s.prev := rfl
@[simp] theorem writeSmp_w2b (i : Nat) (v : BitVec Config.sampleW) (s : State) : (writeSmp i v s).w2b = s.w2b := rfl
@[simp] theorem writeSmp_b2w (i : Nat) (v : BitVec Config.sampleW) (s : State) : (writeSmp i v s).b2w = s.b2w := rfl
@[simp] theorem writeSmp_faultRecord (i : Nat) (v : BitVec Config.sampleW) (s : State) : (writeSmp i v s).faultRecord = s.faultRecord := rfl
@[simp] theorem writeSmp_host (i : Nat) (v : BitVec Config.sampleW) (s : State) : (writeSmp i v s).host = s.host := rfl
@[simp] theorem writeSmp_schedule (i : Nat) (v : BitVec Config.sampleW) (s : State) : (writeSmp i v s).schedule = s.schedule := rfl

@[simp] theorem writePkd_phase (i : Nat) (v : Byte) (s : State) : (writePkd i v s).phase = s.phase := rfl
@[simp] theorem writePkd_cmd (i : Nat) (v : Byte) (s : State) : (writePkd i v s).cmd = s.cmd := rfl
@[simp] theorem writePkd_done (i : Nat) (v : Byte) (s : State) : (writePkd i v s).done = s.done := rfl
@[simp] theorem writePkd_errIllegal (i : Nat) (v : Byte) (s : State) : (writePkd i v s).errIllegal = s.errIllegal := rfl
@[simp] theorem writePkd_errBusy (i : Nat) (v : Byte) (s : State) : (writePkd i v s).errBusy = s.errBusy := rfl
@[simp] theorem writePkd_ieDone (i : Nat) (v : Byte) (s : State) : (writePkd i v s).ieDone = s.ieDone := rfl
@[simp] theorem writePkd_ieErr (i : Nat) (v : Byte) (s : State) : (writePkd i v s).ieErr = s.ieErr := rfl
@[simp] theorem writePkd_w2bCnt (i : Nat) (v : Byte) (s : State) : (writePkd i v s).w2bCnt = s.w2bCnt := rfl
@[simp] theorem writePkd_b2wCnt (i : Nat) (v : Byte) (s : State) : (writePkd i v s).b2wCnt = s.b2wCnt := rfl
@[simp] theorem writePkd_lkX (i : Nat) (v : Byte) (s : State) : (writePkd i v s).lkX = s.lkX := rfl
@[simp] theorem writePkd_lkY (i : Nat) (v : Byte) (s : State) : (writePkd i v s).lkY = s.lkY := rfl
@[simp] theorem writePkd_lkRes (i : Nat) (v : Byte) (s : State) : (writePkd i v s).lkRes = s.lkRes := rfl
@[simp] theorem writePkd_lkMask (i : Nat) (v : Byte) (s : State) : (writePkd i v s).lkMask = s.lkMask := rfl
@[simp] theorem writePkd_smp (i : Nat) (v : Byte) (s : State) : (writePkd i v s).smp = s.smp := rfl
@[simp] theorem writePkd_pkd (i : Nat) (v : Byte) (s : State) : (writePkd i v s).pkd = Memory.write s.pkd i v := rfl
@[simp] theorem writePkd_prev (i : Nat) (v : Byte) (s : State) : (writePkd i v s).prev = s.prev := rfl
@[simp] theorem writePkd_w2b (i : Nat) (v : Byte) (s : State) : (writePkd i v s).w2b = s.w2b := rfl
@[simp] theorem writePkd_b2w (i : Nat) (v : Byte) (s : State) : (writePkd i v s).b2w = s.b2w := rfl
@[simp] theorem writePkd_faultRecord (i : Nat) (v : Byte) (s : State) : (writePkd i v s).faultRecord = s.faultRecord := rfl
@[simp] theorem writePkd_host (i : Nat) (v : Byte) (s : State) : (writePkd i v s).host = s.host := rfl
@[simp] theorem writePkd_schedule (i : Nat) (v : Byte) (s : State) : (writePkd i v s).schedule = s.schedule := rfl

@[simp] theorem storePacked_phase (F : List Byte) (s : State) : (storePacked F s).phase = s.phase := rfl
@[simp] theorem storePacked_cmd (F : List Byte) (s : State) : (storePacked F s).cmd = s.cmd := rfl
@[simp] theorem storePacked_done (F : List Byte) (s : State) : (storePacked F s).done = s.done := rfl
@[simp] theorem storePacked_errIllegal (F : List Byte) (s : State) : (storePacked F s).errIllegal = s.errIllegal := rfl
@[simp] theorem storePacked_errBusy (F : List Byte) (s : State) : (storePacked F s).errBusy = s.errBusy := rfl
@[simp] theorem storePacked_ieDone (F : List Byte) (s : State) : (storePacked F s).ieDone = s.ieDone := rfl
@[simp] theorem storePacked_ieErr (F : List Byte) (s : State) : (storePacked F s).ieErr = s.ieErr := rfl
@[simp] theorem storePacked_w2bCnt (F : List Byte) (s : State) : (storePacked F s).w2bCnt = s.w2bCnt := rfl
@[simp] theorem storePacked_b2wCnt (F : List Byte) (s : State) : (storePacked F s).b2wCnt = s.b2wCnt := rfl
@[simp] theorem storePacked_lkX (F : List Byte) (s : State) : (storePacked F s).lkX = s.lkX := rfl
@[simp] theorem storePacked_lkY (F : List Byte) (s : State) : (storePacked F s).lkY = s.lkY := rfl
@[simp] theorem storePacked_lkRes (F : List Byte) (s : State) : (storePacked F s).lkRes = s.lkRes := rfl
@[simp] theorem storePacked_lkMask (F : List Byte) (s : State) : (storePacked F s).lkMask = s.lkMask := rfl
@[simp] theorem storePacked_smp (F : List Byte) (s : State) : (storePacked F s).smp = s.smp := rfl
@[simp] theorem storePacked_pkd (F : List Byte) (s : State) : (storePacked F s).pkd = Memory.ofList F := rfl
@[simp] theorem storePacked_prev (F : List Byte) (s : State) : (storePacked F s).prev = s.prev := rfl
@[simp] theorem storePacked_w2b (F : List Byte) (s : State) : (storePacked F s).w2b = s.w2b := rfl
@[simp] theorem storePacked_b2w (F : List Byte) (s : State) : (storePacked F s).b2w = s.b2w := rfl
@[simp] theorem storePacked_faultRecord (F : List Byte) (s : State) : (storePacked F s).faultRecord = s.faultRecord := rfl
@[simp] theorem storePacked_host (F : List Byte) (s : State) : (storePacked F s).host = s.host := rfl
@[simp] theorem storePacked_schedule (F : List Byte) (s : State) : (storePacked F s).schedule = s.schedule := rfl

@[simp] theorem storePrev_phase (F : List Byte) (s : State) : (storePrev F s).phase = s.phase := rfl
@[simp] theorem storePrev_cmd (F : List Byte) (s : State) : (storePrev F s).cmd = s.cmd := rfl
@[simp] theorem storePrev_done (F : List Byte) (s : State) : (storePrev F s).done = s.done := rfl
@[simp] theorem storePrev_errIllegal (F : List Byte) (s : State) : (storePrev F s).errIllegal = s.errIllegal := rfl
@[simp] theorem storePrev_errBusy (F : List Byte) (s : State) : (storePrev F s).errBusy = s.errBusy := rfl
@[simp] theorem storePrev_ieDone (F : List Byte) (s : State) : (storePrev F s).ieDone = s.ieDone := rfl
@[simp] theorem storePrev_ieErr (F : List Byte) (s : State) : (storePrev F s).ieErr = s.ieErr := rfl
@[simp] theorem storePrev_w2bCnt (F : List Byte) (s : State) : (storePrev F s).w2bCnt = s.w2bCnt := rfl
@[simp] theorem storePrev_b2wCnt (F : List Byte) (s : State) : (storePrev F s).b2wCnt = s.b2wCnt := rfl
@[simp] theorem storePrev_lkX (F : List Byte) (s : State) : (storePrev F s).lkX = s.lkX := rfl
@[simp] theorem storePrev_lkY (F : List Byte) (s : State) : (storePrev F s).lkY = s.lkY := rfl
@[simp] theorem storePrev_lkRes (F : List Byte) (s : State) : (storePrev F s).lkRes = s.lkRes := rfl
@[simp] theorem storePrev_lkMask (F : List Byte) (s : State) : (storePrev F s).lkMask = s.lkMask := rfl
@[simp] theorem storePrev_smp (F : List Byte) (s : State) : (storePrev F s).smp = s.smp := rfl
@[simp] theorem storePrev_pkd (F : List Byte) (s : State) : (storePrev F s).pkd = s.pkd := rfl
@[simp] theorem storePrev_prev (F : List Byte) (s : State) : (storePrev F s).prev = prevOfFrame F := rfl
@[simp] theorem storePrev_w2b (F : List Byte) (s : State) : (storePrev F s).w2b = s.w2b := rfl
@[simp] theorem storePrev_b2w (F : List Byte) (s : State) : (storePrev F s).b2w = s.b2w := rfl
@[simp] theorem storePrev_faultRecord (F : List Byte) (s : State) : (storePrev F s).faultRecord = s.faultRecord := rfl
@[simp] theorem storePrev_host (F : List Byte) (s : State) : (storePrev F s).host = s.host := rfl
@[simp] theorem storePrev_schedule (F : List Byte) (s : State) : (storePrev F s).schedule = s.schedule := rfl

@[simp] theorem storeLists_phase (ws bs : List (BitVec 16)) (s : State) : (storeLists ws bs s).phase = s.phase := rfl
@[simp] theorem storeLists_cmd (ws bs : List (BitVec 16)) (s : State) : (storeLists ws bs s).cmd = s.cmd := rfl
@[simp] theorem storeLists_done (ws bs : List (BitVec 16)) (s : State) : (storeLists ws bs s).done = s.done := rfl
@[simp] theorem storeLists_errIllegal (ws bs : List (BitVec 16)) (s : State) : (storeLists ws bs s).errIllegal = s.errIllegal := rfl
@[simp] theorem storeLists_errBusy (ws bs : List (BitVec 16)) (s : State) : (storeLists ws bs s).errBusy = s.errBusy := rfl
@[simp] theorem storeLists_ieDone (ws bs : List (BitVec 16)) (s : State) : (storeLists ws bs s).ieDone = s.ieDone := rfl
@[simp] theorem storeLists_ieErr (ws bs : List (BitVec 16)) (s : State) : (storeLists ws bs s).ieErr = s.ieErr := rfl
@[simp] theorem storeLists_w2bCnt (ws bs : List (BitVec 16)) (s : State) : (storeLists ws bs s).w2bCnt = BitVec.ofNat 14 ws.length := rfl
@[simp] theorem storeLists_b2wCnt (ws bs : List (BitVec 16)) (s : State) : (storeLists ws bs s).b2wCnt = BitVec.ofNat 14 bs.length := rfl
@[simp] theorem storeLists_lkX (ws bs : List (BitVec 16)) (s : State) : (storeLists ws bs s).lkX = s.lkX := rfl
@[simp] theorem storeLists_lkY (ws bs : List (BitVec 16)) (s : State) : (storeLists ws bs s).lkY = s.lkY := rfl
@[simp] theorem storeLists_lkRes (ws bs : List (BitVec 16)) (s : State) : (storeLists ws bs s).lkRes = s.lkRes := rfl
@[simp] theorem storeLists_lkMask (ws bs : List (BitVec 16)) (s : State) : (storeLists ws bs s).lkMask = s.lkMask := rfl
@[simp] theorem storeLists_smp (ws bs : List (BitVec 16)) (s : State) : (storeLists ws bs s).smp = s.smp := rfl
@[simp] theorem storeLists_pkd (ws bs : List (BitVec 16)) (s : State) : (storeLists ws bs s).pkd = s.pkd := rfl
@[simp] theorem storeLists_prev (ws bs : List (BitVec 16)) (s : State) : (storeLists ws bs s).prev = s.prev := rfl
@[simp] theorem storeLists_w2b (ws bs : List (BitVec 16)) (s : State) : (storeLists ws bs s).w2b = Memory.ofList ws := rfl
@[simp] theorem storeLists_b2w (ws bs : List (BitVec 16)) (s : State) : (storeLists ws bs s).b2w = Memory.ofList bs := rfl
@[simp] theorem storeLists_faultRecord (ws bs : List (BitVec 16)) (s : State) : (storeLists ws bs s).faultRecord = s.faultRecord := rfl
@[simp] theorem storeLists_host (ws bs : List (BitVec 16)) (s : State) : (storeLists ws bs s).host = s.host := rfl
@[simp] theorem storeLists_schedule (ws bs : List (BitVec 16)) (s : State) : (storeLists ws bs s).schedule = s.schedule := rfl

@[simp] theorem storeLookup_phase (r : BitVec 16 × BitVec 8) (s : State) : (storeLookup r s).phase = s.phase := rfl
@[simp] theorem storeLookup_cmd (r : BitVec 16 × BitVec 8) (s : State) : (storeLookup r s).cmd = s.cmd := rfl
@[simp] theorem storeLookup_done (r : BitVec 16 × BitVec 8) (s : State) : (storeLookup r s).done = s.done := rfl
@[simp] theorem storeLookup_errIllegal (r : BitVec 16 × BitVec 8) (s : State) : (storeLookup r s).errIllegal = s.errIllegal := rfl
@[simp] theorem storeLookup_errBusy (r : BitVec 16 × BitVec 8) (s : State) : (storeLookup r s).errBusy = s.errBusy := rfl
@[simp] theorem storeLookup_ieDone (r : BitVec 16 × BitVec 8) (s : State) : (storeLookup r s).ieDone = s.ieDone := rfl
@[simp] theorem storeLookup_ieErr (r : BitVec 16 × BitVec 8) (s : State) : (storeLookup r s).ieErr = s.ieErr := rfl
@[simp] theorem storeLookup_w2bCnt (r : BitVec 16 × BitVec 8) (s : State) : (storeLookup r s).w2bCnt = s.w2bCnt := rfl
@[simp] theorem storeLookup_b2wCnt (r : BitVec 16 × BitVec 8) (s : State) : (storeLookup r s).b2wCnt = s.b2wCnt := rfl
@[simp] theorem storeLookup_lkX (r : BitVec 16 × BitVec 8) (s : State) : (storeLookup r s).lkX = s.lkX := rfl
@[simp] theorem storeLookup_lkY (r : BitVec 16 × BitVec 8) (s : State) : (storeLookup r s).lkY = s.lkY := rfl
@[simp] theorem storeLookup_lkRes (r : BitVec 16 × BitVec 8) (s : State) : (storeLookup r s).lkRes = r.1 := rfl
@[simp] theorem storeLookup_lkMask (r : BitVec 16 × BitVec 8) (s : State) : (storeLookup r s).lkMask = r.2 := rfl
@[simp] theorem storeLookup_smp (r : BitVec 16 × BitVec 8) (s : State) : (storeLookup r s).smp = s.smp := rfl
@[simp] theorem storeLookup_pkd (r : BitVec 16 × BitVec 8) (s : State) : (storeLookup r s).pkd = s.pkd := rfl
@[simp] theorem storeLookup_prev (r : BitVec 16 × BitVec 8) (s : State) : (storeLookup r s).prev = s.prev := rfl
@[simp] theorem storeLookup_w2b (r : BitVec 16 × BitVec 8) (s : State) : (storeLookup r s).w2b = s.w2b := rfl
@[simp] theorem storeLookup_b2w (r : BitVec 16 × BitVec 8) (s : State) : (storeLookup r s).b2w = s.b2w := rfl
@[simp] theorem storeLookup_faultRecord (r : BitVec 16 × BitVec 8) (s : State) : (storeLookup r s).faultRecord = s.faultRecord := rfl
@[simp] theorem storeLookup_host (r : BitVec 16 × BitVec 8) (s : State) : (storeLookup r s).host = s.host := rfl
@[simp] theorem storeLookup_schedule (r : BitVec 16 × BitVec 8) (s : State) : (storeLookup r s).schedule = s.schedule := rfl

@[simp] theorem resetBlock_phase (s : State) : (resetBlock s).phase = State.reset.phase := rfl
@[simp] theorem resetBlock_cmd (s : State) : (resetBlock s).cmd = State.reset.cmd := rfl
@[simp] theorem resetBlock_done (s : State) : (resetBlock s).done = State.reset.done := rfl
@[simp] theorem resetBlock_errIllegal (s : State) : (resetBlock s).errIllegal = State.reset.errIllegal := rfl
@[simp] theorem resetBlock_errBusy (s : State) : (resetBlock s).errBusy = State.reset.errBusy := rfl
@[simp] theorem resetBlock_ieDone (s : State) : (resetBlock s).ieDone = State.reset.ieDone := rfl
@[simp] theorem resetBlock_ieErr (s : State) : (resetBlock s).ieErr = State.reset.ieErr := rfl
@[simp] theorem resetBlock_w2bCnt (s : State) : (resetBlock s).w2bCnt = State.reset.w2bCnt := rfl
@[simp] theorem resetBlock_b2wCnt (s : State) : (resetBlock s).b2wCnt = State.reset.b2wCnt := rfl
@[simp] theorem resetBlock_lkX (s : State) : (resetBlock s).lkX = State.reset.lkX := rfl
@[simp] theorem resetBlock_lkY (s : State) : (resetBlock s).lkY = State.reset.lkY := rfl
@[simp] theorem resetBlock_lkRes (s : State) : (resetBlock s).lkRes = State.reset.lkRes := rfl
@[simp] theorem resetBlock_lkMask (s : State) : (resetBlock s).lkMask = State.reset.lkMask := rfl
@[simp] theorem resetBlock_smp (s : State) : (resetBlock s).smp = State.reset.smp := rfl
@[simp] theorem resetBlock_pkd (s : State) : (resetBlock s).pkd = State.reset.pkd := rfl
@[simp] theorem resetBlock_prev (s : State) : (resetBlock s).prev = State.reset.prev := rfl
@[simp] theorem resetBlock_w2b (s : State) : (resetBlock s).w2b = State.reset.w2b := rfl
@[simp] theorem resetBlock_b2w (s : State) : (resetBlock s).b2w = State.reset.b2w := rfl
@[simp] theorem resetBlock_faultRecord (s : State) : (resetBlock s).faultRecord = s.faultRecord := rfl
@[simp] theorem resetBlock_host (s : State) : (resetBlock s).host = s.host := rfl
@[simp] theorem resetBlock_schedule (s : State) : (resetBlock s).schedule = s.schedule := rfl

@[simp] theorem recordFault_phase (r : Fault) (s : State) : (recordFault r s).phase = s.phase := rfl
@[simp] theorem recordFault_cmd (r : Fault) (s : State) : (recordFault r s).cmd = s.cmd := rfl
@[simp] theorem recordFault_done (r : Fault) (s : State) : (recordFault r s).done = s.done := rfl
@[simp] theorem recordFault_errIllegal (r : Fault) (s : State) : (recordFault r s).errIllegal = s.errIllegal := rfl
@[simp] theorem recordFault_errBusy (r : Fault) (s : State) : (recordFault r s).errBusy = s.errBusy := rfl
@[simp] theorem recordFault_ieDone (r : Fault) (s : State) : (recordFault r s).ieDone = s.ieDone := rfl
@[simp] theorem recordFault_ieErr (r : Fault) (s : State) : (recordFault r s).ieErr = s.ieErr := rfl
@[simp] theorem recordFault_w2bCnt (r : Fault) (s : State) : (recordFault r s).w2bCnt = s.w2bCnt := rfl
@[simp] theorem recordFault_b2wCnt (r : Fault) (s : State) : (recordFault r s).b2wCnt = s.b2wCnt := rfl
@[simp] theorem recordFault_lkX (r : Fault) (s : State) : (recordFault r s).lkX = s.lkX := rfl
@[simp] theorem recordFault_lkY (r : Fault) (s : State) : (recordFault r s).lkY = s.lkY := rfl
@[simp] theorem recordFault_lkRes (r : Fault) (s : State) : (recordFault r s).lkRes = s.lkRes := rfl
@[simp] theorem recordFault_lkMask (r : Fault) (s : State) : (recordFault r s).lkMask = s.lkMask := rfl
@[simp] theorem recordFault_smp (r : Fault) (s : State) : (recordFault r s).smp = s.smp := rfl
@[simp] theorem recordFault_pkd (r : Fault) (s : State) : (recordFault r s).pkd = s.pkd := rfl
@[simp] theorem recordFault_prev (r : Fault) (s : State) : (recordFault r s).prev = s.prev := rfl
@[simp] theorem recordFault_w2b (r : Fault) (s : State) : (recordFault r s).w2b = s.w2b := rfl
@[simp] theorem recordFault_b2w (r : Fault) (s : State) : (recordFault r s).b2w = s.b2w := rfl
@[simp] theorem recordFault_faultRecord (r : Fault) (s : State) : (recordFault r s).faultRecord = addFault r s.faultRecord := rfl
@[simp] theorem recordFault_host (r : Fault) (s : State) : (recordFault r s).host = s.host := rfl
@[simp] theorem recordFault_schedule (r : Fault) (s : State) : (recordFault r s).schedule = s.schedule := rfl

@[simp] theorem withHost_phase (h : HostAgent) (s : State) : (withHost h s).phase = s.phase := rfl
@[simp] theorem withHost_cmd (h : HostAgent) (s : State) : (withHost h s).cmd = s.cmd := rfl
@[simp] theorem withHost_done (h : HostAgent) (s : State) : (withHost h s).done = s.done := rfl
@[simp] theorem withHost_errIllegal (h : HostAgent) (s : State) : (withHost h s).errIllegal = s.errIllegal := rfl
@[simp] theorem withHost_errBusy (h : HostAgent) (s : State) : (withHost h s).errBusy = s.errBusy := rfl
@[simp] theorem withHost_ieDone (h : HostAgent) (s : State) : (withHost h s).ieDone = s.ieDone := rfl
@[simp] theorem withHost_ieErr (h : HostAgent) (s : State) : (withHost h s).ieErr = s.ieErr := rfl
@[simp] theorem withHost_w2bCnt (h : HostAgent) (s : State) : (withHost h s).w2bCnt = s.w2bCnt := rfl
@[simp] theorem withHost_b2wCnt (h : HostAgent) (s : State) : (withHost h s).b2wCnt = s.b2wCnt := rfl
@[simp] theorem withHost_lkX (h : HostAgent) (s : State) : (withHost h s).lkX = s.lkX := rfl
@[simp] theorem withHost_lkY (h : HostAgent) (s : State) : (withHost h s).lkY = s.lkY := rfl
@[simp] theorem withHost_lkRes (h : HostAgent) (s : State) : (withHost h s).lkRes = s.lkRes := rfl
@[simp] theorem withHost_lkMask (h : HostAgent) (s : State) : (withHost h s).lkMask = s.lkMask := rfl
@[simp] theorem withHost_smp (h : HostAgent) (s : State) : (withHost h s).smp = s.smp := rfl
@[simp] theorem withHost_pkd (h : HostAgent) (s : State) : (withHost h s).pkd = s.pkd := rfl
@[simp] theorem withHost_prev (h : HostAgent) (s : State) : (withHost h s).prev = s.prev := rfl
@[simp] theorem withHost_w2b (h : HostAgent) (s : State) : (withHost h s).w2b = s.w2b := rfl
@[simp] theorem withHost_b2w (h : HostAgent) (s : State) : (withHost h s).b2w = s.b2w := rfl
@[simp] theorem withHost_faultRecord (h : HostAgent) (s : State) : (withHost h s).faultRecord = s.faultRecord := rfl
@[simp] theorem withHost_host (h : HostAgent) (s : State) : (withHost h s).host = h := rfl
@[simp] theorem withHost_schedule (h : HostAgent) (s : State) : (withHost h s).schedule = s.schedule := rfl

@[simp] theorem withSchedule_phase (ts : List Turn) (s : State) : (withSchedule ts s).phase = s.phase := rfl
@[simp] theorem withSchedule_cmd (ts : List Turn) (s : State) : (withSchedule ts s).cmd = s.cmd := rfl
@[simp] theorem withSchedule_done (ts : List Turn) (s : State) : (withSchedule ts s).done = s.done := rfl
@[simp] theorem withSchedule_errIllegal (ts : List Turn) (s : State) : (withSchedule ts s).errIllegal = s.errIllegal := rfl
@[simp] theorem withSchedule_errBusy (ts : List Turn) (s : State) : (withSchedule ts s).errBusy = s.errBusy := rfl
@[simp] theorem withSchedule_ieDone (ts : List Turn) (s : State) : (withSchedule ts s).ieDone = s.ieDone := rfl
@[simp] theorem withSchedule_ieErr (ts : List Turn) (s : State) : (withSchedule ts s).ieErr = s.ieErr := rfl
@[simp] theorem withSchedule_w2bCnt (ts : List Turn) (s : State) : (withSchedule ts s).w2bCnt = s.w2bCnt := rfl
@[simp] theorem withSchedule_b2wCnt (ts : List Turn) (s : State) : (withSchedule ts s).b2wCnt = s.b2wCnt := rfl
@[simp] theorem withSchedule_lkX (ts : List Turn) (s : State) : (withSchedule ts s).lkX = s.lkX := rfl
@[simp] theorem withSchedule_lkY (ts : List Turn) (s : State) : (withSchedule ts s).lkY = s.lkY := rfl
@[simp] theorem withSchedule_lkRes (ts : List Turn) (s : State) : (withSchedule ts s).lkRes = s.lkRes := rfl
@[simp] theorem withSchedule_lkMask (ts : List Turn) (s : State) : (withSchedule ts s).lkMask = s.lkMask := rfl
@[simp] theorem withSchedule_smp (ts : List Turn) (s : State) : (withSchedule ts s).smp = s.smp := rfl
@[simp] theorem withSchedule_pkd (ts : List Turn) (s : State) : (withSchedule ts s).pkd = s.pkd := rfl
@[simp] theorem withSchedule_prev (ts : List Turn) (s : State) : (withSchedule ts s).prev = s.prev := rfl
@[simp] theorem withSchedule_w2b (ts : List Turn) (s : State) : (withSchedule ts s).w2b = s.w2b := rfl
@[simp] theorem withSchedule_b2w (ts : List Turn) (s : State) : (withSchedule ts s).b2w = s.b2w := rfl
@[simp] theorem withSchedule_faultRecord (ts : List Turn) (s : State) : (withSchedule ts s).faultRecord = s.faultRecord := rfl
@[simp] theorem withSchedule_host (ts : List Turn) (s : State) : (withSchedule ts s).host = s.host := rfl
@[simp] theorem withSchedule_schedule (ts : List Turn) (s : State) : (withSchedule ts s).schedule = ts := rfl

end Sys2Proof.Laws
end

