-- ==== Sys2Proof/Laws/Exec.lean ====
section
/-! SUPPORT. What each meaning answers on operands that are all written, and when it faults. -/

namespace Sys2Proof.Laws

open Sys2Proof.Machine

/-- PACK on a fully written SMP. -/
theorem execPack_of_holds {s : State} {S : List (BitVec Config.sampleW)} (hl : S.length = Config.npix)
    (h : Memory.holds s.smp S) : execPack s = .next (complete (storePacked (packBits (S.map pix)) s)) := by
  have : Memory.readFrom s.smp 0 Config.npix = .ok S :=
    readFrom_eq_ok.2 ⟨hl, fun j hj => by rw [Nat.zero_add]; exact h j (hl ▸ hj)⟩
  simp only [execPack, this]

/-- PACK answers a next state only on a fully written SMP. -/
theorem execPack_next {s t : State} (h : execPack s = .next t) :
    ∃ S : List (BitVec Config.sampleW), S.length = Config.npix ∧ Memory.holds s.smp S ∧
      t = complete (storePacked (packBits (S.map pix)) s) := by
  simp only [execPack] at h
  split at h
  · simp at h
  · rename_i S hS
    obtain ⟨hl, hr⟩ := readFrom_eq_ok.1 hS
    exact ⟨S, hl, fun i hi => by simpa using hr i (hl ▸ hi), by simpa using h.symm⟩

/-- PACK faults exactly at the first unwritten sample. -/
theorem execPack_fault {s : State} {r : Fault} : execPack s = .fault r ↔
    ∃ k < Config.npix, Memory.read s.smp k = none ∧ (∀ j < k, Memory.read s.smp j ≠ none) ∧
      r = .uninit .engine (.smp (BitVec.ofNat 13 k)) := by
  simp only [execPack]
  constructor
  · intro h
    split at h
    · rename_i k hk
      obtain ⟨-, h2, h3, h4⟩ := readFrom_eq_error.1 hk
      exact ⟨k, by simpa using h2, h3, fun j hj => h4 j (Nat.zero_le _) hj, by simpa [Space.elem] using h.symm⟩
    · simp at h
  · rintro ⟨k, h1, h2, h3, rfl⟩
    have : Memory.readFrom s.smp 0 Config.npix = .error k :=
      readFrom_eq_error.2 ⟨Nat.zero_le _, by simpa using h1, h2, fun j _ hj => h3 j hj⟩
    rw [this]; rfl

/-- DIFF on a fully written PKD: the lists are the two kinds of changed pixels in raster order. -/
theorem execDiff_of_holds {s : State} {Q : List Byte} (hQ : isFrame Q) (h : Memory.holds s.pkd Q) :
    execDiff s = .next (complete (storePrev Q (storeLists
      ((whiteToBlack (prevFrame s.prev) Q).map coordWord) ((blackToWhite (prevFrame s.prev) Q).map coordWord) s))) := by
  have : Memory.readFrom s.pkd 0 Config.nbytes = .ok Q :=
    readFrom_eq_ok.2 ⟨hQ, fun j hj => by rw [Nat.zero_add]; exact h j (hQ.symm ▸ hj)⟩
  simp only [execDiff, this, transitions_unpack (length_prevFrame s.prev) hQ]

/-- DIFF answers a next state only on a fully written PKD. -/
theorem execDiff_next {s t : State} (h : execDiff s = .next t) :
    ∃ Q : List Byte, isFrame Q ∧ Memory.holds s.pkd Q ∧
      t = complete (storePrev Q (storeLists ((whiteToBlack (prevFrame s.prev) Q).map coordWord)
        ((blackToWhite (prevFrame s.prev) Q).map coordWord) s)) := by
  cases hS : Memory.readFrom s.pkd 0 Config.nbytes with
  | error k => simp [execDiff, hS] at h
  | ok Q =>
    obtain ⟨hl, hr⟩ := readFrom_eq_ok.1 hS
    have hh : Memory.holds s.pkd Q := fun i hi => by simpa using hr i (hl ▸ hi)
    rw [execDiff_of_holds hl hh] at h
    exact ⟨Q, hl, hh, by simpa using h.symm⟩

/-- DIFF faults exactly at the first unwritten byte of PKD. -/
theorem execDiff_fault {s : State} {r : Fault} : execDiff s = .fault r ↔
    ∃ k < Config.nbytes, Memory.read s.pkd k = none ∧ (∀ j < k, Memory.read s.pkd j ≠ none) ∧
      r = .uninit .engine (.pkd (BitVec.ofNat 10 k)) := by
  simp only [execDiff]
  constructor
  · intro h
    split at h
    · rename_i k hk
      obtain ⟨-, h2, h3, h4⟩ := readFrom_eq_error.1 hk
      exact ⟨k, by simpa using h2, h3, fun j hj => h4 j (Nat.zero_le _) hj, by simpa [Space.elem] using h.symm⟩
    · simp at h
  · rintro ⟨k, h1, h2, h3, rfl⟩
    have : Memory.readFrom s.pkd 0 Config.nbytes = .error k :=
      readFrom_eq_error.2 ⟨Nat.zero_le _, by simpa using h1, h2, fun j _ hj => h3 j hj⟩
    rw [this]; rfl

/-- A whole written memory is a list. -/
theorem exists_holds {w : Nat} (m : Memory w) {n : Nat} (h : ∀ i < n, Memory.read m i ≠ none) :
    ∃ vs : List (BitVec w), vs.length = n ∧ Memory.holds m vs := by
  cases hr : Memory.readFrom m 0 n with
  | error k =>
    obtain ⟨-, h2, h3, -⟩ := readFrom_eq_error.1 hr
    exact absurd h3 (h k (by simpa using h2))
  | ok vs =>
    obtain ⟨hl, hv⟩ := readFrom_eq_ok.1 hr
    exact ⟨vs, hl, fun i hi => by simpa using hv i (hl ▸ hi)⟩

theorem coordWord_toNat {i : Nat} (h : i < Config.npix) : (coordWord i).toNat = i := by
  simp only [coordWord, BitVec.toNat_ofNat]
  exact Nat.mod_eq_of_lt (lt_trans h (by decide))

theorem count_toNat {n : Nat} (h : n ≤ Config.npix) : (BitVec.ofNat 14 n).toNat = n := by
  rw [BitVec.toNat_ofNat]
  exact Nat.mod_eq_of_lt (lt_of_le_of_lt h (by decide))

/-- Reading out a list memory that holds the coordinate words of raster indices gives these indices. -/
theorem listIndices_ofList {is : List Nat} (h : ∀ i ∈ is, i < Config.npix) (hl : is.length ≤ Config.npix) :
    listIndices (Memory.ofList (is.map coordWord)) (BitVec.ofNat 14 (is.map coordWord).length) = is := by
  rw [listIndices, count_toNat (by simpa using hl)]
  apply List.ext_getElem?
  intro j
  rcases Nat.lt_or_ge j is.length with hj | hj
  · simp only [List.length_map, List.getElem?_map, List.getElem?_range hj, Option.map_some, read_ofList,
      List.getElem?_eq_getElem hj, Option.getD_some]
    rw [coordWord_toNat (h _ (List.getElem_mem hj))]
  · rw [List.getElem?_eq_none (by simpa using hj), List.getElem?_eq_none hj]

/-- LK_RES of an in-bounds pixel, as a number: VALID has weight 32768, BIT 1024, BYTE 1. -/
theorem lookupWord_toNat {bitn byte : Nat} (hb : bitn < 8) (hB : byte < 1024) :
    (lookupWord bitn byte).toNat = 32768 + 1024 * bitn + byte := by
  have h3 : (BitVec.ofNat 3 bitn).toNat = bitn := by rw [BitVec.toNat_ofNat]; omega
  have h10 : (BitVec.ofNat 10 byte).toNat = byte := by rw [BitVec.toNat_ofNat]; omega
  have h1 : (1#1 ++ 0#2 : BitVec 3).toNat = 4 := by decide
  rw [lookupWord, BitVec.toNat_append, BitVec.toNat_append, h1, h3, h10,
    ← Nat.shiftLeft_add_eq_or_of_lt (by simpa using hB), ← Nat.shiftLeft_add_eq_or_of_lt (by simpa using hb),
    Nat.shiftLeft_eq, Nat.shiftLeft_eq]
  omega

/-- LK_RES of an in-bounds pixel, field by field. -/
theorem lookupWord_fields {bitn byte : Nat} (hb : bitn < 8) (hB : byte < 1024) :
    lkValid (lookupWord bitn byte) = true ∧ (lookupWord bitn byte).extractLsb' 13 2 = 0#2 ∧
      lkBit (lookupWord bitn byte) = bitn ∧ lkByte (lookupWord bitn byte) = byte := by
  have h := lookupWord_toNat hb hB
  refine ⟨?_, ?_, ?_, ?_⟩
  · rw [lkValid, BitVec.getLsbD, Nat.testBit_eq_decide_div_mod_eq, h]
    simp only [decide_eq_true_eq]; omega
  · apply BitVec.eq_of_toNat_eq
    rw [BitVec.extractLsb'_toNat, h, Nat.shiftRight_eq_div_pow]
    simp only [BitVec.toNat_ofNat]; omega
  · rw [lkBit, uint, BitVec.extractLsb'_toNat, h, Nat.shiftRight_eq_div_pow]; omega
  · rw [lkByte, uint, BitVec.extractLsb'_toNat, h, Nat.shiftRight_eq_div_pow]; omega

/-- LOOKUP's results for an in-bounds coordinate, in closed form (R85). -/
theorem lookupResult_inBounds {X Y : BitVec 16} {x y : Nat} (hX : sint X = x) (hY : sint Y = y)
    (hx : x < 128) (hy : y < 64) :
    lookupResult X Y = (lookupWord (7 - x % 8) (16 * y + x / 8), BitVec.ofNat 8 (2 ^ (7 - x % 8))) := by
  have hin : inBounds (x : Int) (y : Int) = true := by
    simp only [inBounds, Config.width, Config.height, Bool.and_eq_true, decide_eq_true_eq]; omega
  have hi : rasterIndex (x : Int) (y : Int) = 128 * y + x := by
    simp only [rasterIndex, Config.width]; omega
  simp only [lookupResult, hX, hY, hin, hi, if_true]
  rw [show (128 * y + x) % 8 = x % 8 by omega, show (128 * y + x) / 8 = 16 * y + x / 8 by omega]

/-- LOOKUP's results for any other coordinate (R83, R84). -/
theorem lookupResult_outOfBounds {X Y : BitVec 16}
    (h : ¬(0 ≤ sint X ∧ sint X < 128 ∧ 0 ≤ sint Y ∧ sint Y < 64)) : lookupResult X Y = (0x0000#16, 0x00#8) := by
  have hin : inBounds (sint X) (sint Y) = false := by
    rw [← Bool.not_eq_true]
    simp only [inBounds, Config.width, Config.height, Bool.and_eq_true, decide_eq_true_eq]
    exact fun hc => h ⟨hc.1.1.1, hc.1.1.2, hc.1.2, hc.2⟩
  simp [lookupResult, hin]

/-- LOOKUP of an in-bounds coordinate, in closed form (R83, R85). -/
theorem execLookup_inBounds {s : State} {x y : Nat} (hx : x < 128) (hy : y < 64) (hX : sint s.lkX = x)
    (hY : sint s.lkY = y) : execLookup s = .next (complete (storeLookup
      (lookupWord (7 - x % 8) (16 * y + x / 8), BitVec.ofNat 8 (2 ^ (7 - x % 8))) s)) := by
  simp only [execLookup, lookupResult_inBounds hX hY hx hy]

/-- Everything a command that completes can do to the state: one update for each command. -/
theorem exec_next {i : Instr} {s t : State} (h : exec i s = .next t) : ∃ F ws bs P r,
    (i = .nop ∧ t = complete s) ∨ (i = .pack ∧ t = complete (storePacked F s)) ∨
    (i = .diff ∧ t = complete (storePrev P (storeLists ws bs s))) ∨
    (i = .lookup ∧ t = complete (storeLookup r s)) ∨ (i = .clrprev ∧ t = complete (storePrev P s)) := by
  cases i
  · exact ⟨[], [], [], [], (0, 0), .inl ⟨rfl, by simpa [exec, execNop] using h.symm⟩⟩
  · obtain ⟨S, -, -, e⟩ := execPack_next h
    exact ⟨_, [], [], [], (0, 0), .inr (.inl ⟨rfl, e⟩)⟩
  · obtain ⟨S, -, -, e⟩ := execDiff_next h
    exact ⟨[], _, _, _, (0, 0), .inr (.inr (.inl ⟨rfl, e⟩))⟩
  · exact ⟨[], [], [], [], _, .inr (.inr (.inr (.inl ⟨rfl, by simpa [exec, execLookup] using h.symm⟩)))⟩
  · exact ⟨[], [], [], _, (0, 0), .inr (.inr (.inr (.inr ⟨rfl, by simpa [exec, execClrprev] using h.symm⟩)))⟩

end Sys2Proof.Laws
end

