-- ==== Sys2Proof/Laws/PerInstr.lean ====
section
/-! SUPPORT. The per-instruction family Encoding: what every command is as syntax (R55 to R59). -/

/-- The command is well formed; its word has RSV = 0 and an opcode of the map (R55, R56); decoding that word, alone, as
the low byte of a CMD write with any high byte, or at the head of a list of bytes, gives the command (R58, R66). -/
def Sys2Proof.Laws.Encoding.Statement (i : Sys2Proof.Instr) : Prop :=
  i.wellFormed = true ∧ Sys2Proof.rsvField (Sys2Proof.encode i) = 0#4 ∧
    Sys2Proof.opcode (Sys2Proof.opField (Sys2Proof.encode i)) = some i ∧
    Sys2Proof.decode (Sys2Proof.encode i) = .ok i ∧
    (∀ high : BitVec 8, Sys2Proof.decodeWrite (high ++ Sys2Proof.encode i) = .ok i) ∧
    ∀ rest, Sys2Proof.decodeBytes (Sys2Proof.encode i :: rest) = some (.ok i, rest)

theorem Sys2Proof.Laws.decodeWrite_append (high low : BitVec 8) :
    Sys2Proof.decodeWrite (high ++ low) = Sys2Proof.decode low := by
  have : (high ++ low).extractLsb' 0 8 = low := by
    apply BitVec.eq_of_toNat_eq
    simp only [BitVec.extractLsb'_toNat, BitVec.toNat_append, Nat.shiftRight_zero]
    rw [← Nat.shiftLeft_add_eq_or_of_lt low.isLt, Nat.shiftLeft_eq]
    have := low.isLt
    omega
  rw [Sys2Proof.decodeWrite, this]

theorem Sys2Proof.Laws.Encoding.nop : Sys2Proof.Laws.Encoding.Statement .nop :=
  ⟨rfl, rfl, rfl, rfl, fun high => (Sys2Proof.Laws.decodeWrite_append high _).trans rfl, fun _ => rfl⟩

theorem Sys2Proof.Laws.Encoding.pack : Sys2Proof.Laws.Encoding.Statement .pack :=
  ⟨rfl, rfl, rfl, rfl, fun high => (Sys2Proof.Laws.decodeWrite_append high _).trans rfl, fun _ => rfl⟩

theorem Sys2Proof.Laws.Encoding.diff : Sys2Proof.Laws.Encoding.Statement .diff :=
  ⟨rfl, rfl, rfl, rfl, fun high => (Sys2Proof.Laws.decodeWrite_append high _).trans rfl, fun _ => rfl⟩

theorem Sys2Proof.Laws.Encoding.lookup : Sys2Proof.Laws.Encoding.Statement .lookup :=
  ⟨rfl, rfl, rfl, rfl, fun high => (Sys2Proof.Laws.decodeWrite_append high _).trans rfl, fun _ => rfl⟩

theorem Sys2Proof.Laws.Encoding.clrprev : Sys2Proof.Laws.Encoding.Statement .clrprev :=
  ⟨rfl, rfl, rfl, rfl, fun high => (Sys2Proof.Laws.decodeWrite_append high _).trans rfl, fun _ => rfl⟩
end

