-- ==== Sys2Proof/Laws/Turn.lean ====
section
/-! SUPPORT. What one turn, one Host statement and one access can do: the lemmas later proofs cite in place of unfolding
the operations. -/

namespace Sys2Proof.Laws

open Sys2Proof.Machine

/-- A chosen turn can be taken; a Host or Engine turn means nothing has faulted. -/
theorem chooseTurn_enabled {s : State} {l ts : List Turn} {t : Turn} (h : chooseTurn s l = some (t, ts)) :
    enabled s t = true := by
  induction l with
  | nil =>
    simp only [chooseTurn] at h
    split at h
    · simp only [Option.some.injEq, Prod.mk.injEq] at h; exact h.1 ▸ ‹_›
    · split at h
      · simp only [Option.some.injEq, Prod.mk.injEq] at h; exact h.1 ▸ ‹_›
      · simp at h
  | cons u l ih =>
    simp only [chooseTurn] at h
    split at h
    · simp only [Option.some.injEq, Prod.mk.injEq] at h; exact h.1 ▸ ‹_›
    · exact ih h

/-- No turn is chosen exactly when no reset is scheduled and no agent has a step. -/
theorem chooseTurn_eq_none {s : State} {l : List Turn} :
    chooseTurn s l = none ↔ Turn.reset ∉ l ∧ enabled s .engine = false ∧ enabled s .host = false := by
  induction l with
  | nil => simp only [chooseTurn]; split <;> (try split) <;> simp_all
  | cons u l ih =>
    simp only [chooseTurn, List.mem_cons, not_or]
    split
    · rename_i hu
      cases u <;> simp_all [enabled]
    · rename_i hu
      rw [ih]
      cases u <;> simp_all [enabled]

/-- A scheduled turn that can be taken is the next one. -/
theorem chooseTurn_cons {s : State} {t : Turn} (ts : List Turn) (h : enabled s t = true) :
    chooseTurn s (t :: ts) = some (t, ts) := by simp [chooseTurn, h]

theorem enabled_reset (s : State) : enabled s .reset = true := rfl

theorem enabled_engine {s : State} : enabled s .engine = true ↔ s.faultRecord = [] ∧ s.phase = .busy := by
  simp [enabled]

theorem enabled_host {s : State} : enabled s .host = true ↔ s.faultRecord = [] ∧ s.host.running = true := by
  simp [enabled]

/-- Everything `step` can do when it answers a next state. -/
theorem step_next {s t : State} (h : step s = .next t) :
    ∃ u ts, chooseTurn s s.schedule = some (u, ts) ∧
      ((u = .host ∧ hostStep (withSchedule ts s) = .next t) ∨
       (u = .engine ∧ ∃ i, decode s.cmd = .ok i ∧ exec i (withSchedule ts s) = .next t) ∨
       (u = .reset ∧ t = resetBlock (withSchedule ts s))) := by
  simp only [step, takeTurn] at h
  split at h
  · simp at h
  · exact ⟨_, _, ‹_›, .inl ⟨rfl, h⟩⟩
  · refine ⟨_, _, ‹_›, .inr (.inl ⟨rfl, ?_⟩)⟩
    simp only [engineStep, withSchedule_cmd] at h
    split at h
    · exact ⟨_, ‹_›, h⟩
    · simp at h
  · exact ⟨_, _, ‹_›, .inr (.inr ⟨rfl, by simpa using h.symm⟩)⟩

/-- A Host write that is no hazard: everything it can do to the block. -/
theorem hostWrite_ok {s t : State} {l : Loc} {v : BitVec l.width} (h : hostWrite s l v = .ok t) :
    ¬(s.phase = .busy ∧ l.blocked = true) ∧
    (t = s ∨ t = rejectBusy s ∧ s.phase = .busy ∨ t = rejectIllegal s ∧ s.phase = .idle ∨
     (∃ w i, decode w = .ok i ∧ s.phase = .idle ∧ t = accept w s) ∨
     (∃ x, t = writeStatus x s) ∨ (∃ x, t = writeCtrl x s) ∨
     (s.phase = .idle ∧ ((∃ x, t = writeLkX x s) ∨ (∃ x, t = writeLkY x s) ∨
       (∃ i x, i < Config.npix ∧ t = writeSmp i x s) ∨ (∃ i x, i < Config.nbytes ∧ t = writePkd i x s)))) := by
  unfold hostWrite at h
  split at h
  · simp at h
  · rename_i hb
    have idle : ∀ l : Loc, l.blocked = true → ¬(s.phase = .busy ∧ l.blocked = true) → s.phase = .idle := by
      intro l hl hn
      cases hp : s.phase
      · rfl
      · exact absurd ⟨hp, hl⟩ hn
    refine ⟨hb, ?_⟩
    split at h
    · rename_i i v'
      have hb' : ¬(s.phase = .busy ∧ (Loc.reg i).blocked = true) := hb
      simp only [Except.ok.injEq] at h
      subst h
      simp only [writeReg]
      split
      · simp only [writeCmd]
        split
        · exact .inr (.inl ⟨rfl, ‹_›⟩)
        · split
          · exact .inr (.inr (.inl ⟨rfl, ‹_›⟩))
          · exact .inr (.inr (.inr (.inl ⟨_, _, ‹_›, ‹_›, rfl⟩)))
      · exact .inr (.inr (.inr (.inr (.inl ⟨_, rfl⟩))))
      · exact .inr (.inr (.inr (.inr (.inr (.inl ⟨_, rfl⟩)))))
      · rename_i hi
        exact .inr (.inr (.inr (.inr (.inr (.inr ⟨idle _ (by simp [Loc.blocked, hi]) hb', .inl ⟨_, rfl⟩⟩)))))
      · rename_i hi
        exact .inr (.inr (.inr (.inr (.inr (.inr
          ⟨idle _ (by simp [Loc.blocked, hi]) hb', .inr (.inl ⟨_, rfl⟩)⟩)))))
      · exact .inl rfl
    · rename_i i v'
      simp only [Except.ok.injEq] at h
      exact .inr (.inr (.inr (.inr (.inr (.inr
        ⟨idle (.smp i) rfl hb, .inr (.inr (.inl ⟨i.toNat, v', i.isLt, h.symm⟩))⟩)))))
    · rename_i i v'
      simp only [Except.ok.injEq] at h
      exact .inr (.inr (.inr (.inr (.inr (.inr
        ⟨idle (.pkd i) rfl hb, .inr (.inr (.inr ⟨i.toNat, v', i.isLt, h.symm⟩))⟩)))))
    all_goals
      simp only [Except.ok.injEq] at h
      exact .inl h.symm

/-- A Host statement leaves the block as it is or makes one Host write; in both cases only the Host agent changes
besides. -/
theorem runStmt_ok {st : Stmt} {s t : State} (h : runStmt st s = .ok t) :
    (∃ g, t = withHost g s) ∨
    (∃ sp index value r, st = .wr sp index value ∧
      hostWrite s (hostLoc sp index s) (toBits (hostLoc sp index s).width (evalExpr s.host.vars value)) = .ok r ∧
      t = withHost (advance r.host) r) := by
  cases st with
  | wr sp index value =>
    right
    simp only [runStmt, runWr] at h
    split at h
    · simp at h
    · exact ⟨_, _, _, _, rfl, ‹_›, by simpa using h.symm⟩
  | rd name cell sp index =>
    left
    simp only [runStmt, runRd] at h
    split at h
    · simp at h
    · exact ⟨_, by simpa using h.symm⟩
  | label l => exact .inl ⟨_, by simpa [runStmt] using h.symm⟩
  | ifGoto c l => exact .inl ⟨_, by simpa [runStmt] using h.symm⟩
  | goto l => exact .inl ⟨_, by simpa [runStmt] using h.symm⟩
  | assign name cell e => exact .inl ⟨_, by simpa [runStmt] using h.symm⟩
  | halt => exact .inl ⟨_, by simpa [runStmt] using h.symm⟩

/-- A statement other than `WR` or `RD` never stops, and those two stop only where the access does. -/
theorem runStmt_error {st : Stmt} {s : State} {r : Fault} (h : runStmt st s = .error r) :
    (∃ sp index value, st = .wr sp index value ∧
      hostWrite s (hostLoc sp index s) (toBits (hostLoc sp index s).width (evalExpr s.host.vars value)) = .error r) ∨
    ∃ name cell sp index, st = .rd name cell sp index ∧ hostRead s (hostLoc sp index s) = .error r := by
  cases st with
  | wr sp index value =>
    simp only [runStmt, runWr] at h
    split at h
    · exact .inl ⟨_, _, _, rfl, by simp_all⟩
    · simp at h
  | rd name cell sp index =>
    simp only [runStmt, runRd] at h
    split at h
    · exact .inr ⟨_, _, _, _, rfl, by simp_all⟩
    · simp at h
  | _ => simp [runStmt] at h

/-- `WR` at a known element with a known value. -/
theorem runStmt_wr {sp : Space} {index value : Expr} {s t : State} {l : Loc} {v : BitVec l.width}
    (hl : hostLoc sp index s = l) (hv : toBits l.width (evalExpr s.host.vars value) = v) (h : hostWrite s l v = .ok t) :
    runStmt (.wr sp index value) s = .ok (withHost (advance t.host) t) := by
  subst hl hv; simp only [runStmt, runWr, h]

/-- `RD` at a known element. -/
theorem runStmt_rd {name : Nat} {cell : Expr} {sp : Space} {index : Expr} {s : State} {l : Loc} {v : BitVec l.width}
    (hl : hostLoc sp index s = l) (h : hostRead s l = .ok v) :
    runStmt (.rd name cell sp index) s =
      .ok (withHost (assignNext name (evalExpr s.host.vars cell) (uint v : Nat) s.host) s) := by
  subst hl; simp only [runStmt, runRd, h]

/-- A value that `w` bits hold is offered as it is (R38). -/
theorem toBits_of_fits {w : Nat} {z : Int} (h : fits w z = true) : toBits w z = BitVec.ofInt w z := by simp [toBits, h]

/-- An index inside the space names its element (R37). -/
theorem loc_of_lt {sp : Space} {n : Nat} (h : n < sp.size) : sp.loc n = sp.elem n := by
  have hb : (0 : Int) ≤ n ∧ (n : Int) < sp.size := ⟨Int.natCast_nonneg n, Int.ofNat_lt.2 h⟩
  simp only [Space.loc, if_pos hb, Int.toNat_natCast]

/-- A Host step that answers a next state performed the program's next statement. -/
theorem hostStep_next {s t : State} (h : hostStep s = .next t) :
    ∃ st, s.host.prog[s.host.pos]? = some st ∧ runStmt st s = .ok t := by
  simp only [hostStep] at h
  split at h
  · simp at h
  · split at h
    · simp at h
    · exact ⟨_, ‹_›, by simp_all⟩

/-- A label defined first after `before` stands at that statement. -/
theorem labelPos_append (l : Nat) (before after : List Stmt) (n : Nat) (h : Stmt.label l ∉ before) :
    labelPos l n (before ++ .label l :: after) = some (n + before.length) := by
  induction before generalizing n with
  | nil => simp [labelPos]
  | cons st b ih =>
    simp only [List.mem_cons, not_or] at h
    simp only [List.cons_append, labelPos, if_neg (Ne.symm h.1), ih _ h.2, List.length_cons]
    congr 1; omega

/-- A variable cell reads back what was assigned to it and every other cell keeps its value. -/
theorem lookupVar_assignVar (vars : List ((Nat × Int) × Int)) (key other : Nat × Int) (z : Int) :
    lookupVar (assignVar vars key z) other = if other = key then some z else lookupVar vars other := by
  induction vars with
  | nil => simp [assignVar, lookupVar]
  | cons e vars ih =>
    obtain ⟨k, y⟩ := e
    simp only [assignVar]
    split
    · subst_vars; simp only [lookupVar]; split <;> simp_all
    · simp only [lookupVar, ih]; split <;> split <;> simp_all

end Sys2Proof.Laws
end

