-- ==== Sys2Proof/Tests/Slice0.lean ====
section
/-! SUPPORT. The model's own tests: well-formedness, the encoding written out from the spec, the vectors of
95_test_vectors.md that are one step on a small state, and for every statement with hypotheses a state that meets them. -/

namespace Sys2Proof.Tests

open Sys2Proof Sys2Proof.Machine Sys2Proof.Laws

/-! ### Well-formedness: each check refuses an ill-formed term -/

theorem test_coordWord_refuses_bit_13 : coordWordWellFormed 0x2000#16 = false := by decide
theorem test_coordWord_refuses_bit_15 : coordWordWellFormed 0x8105#16 = false := by decide
theorem test_coordWord_accepts_last_pixel : coordWordWellFormed 0x1FFF#16 = true := by decide
theorem test_prog_refuses_label_defined_twice : progWellFormed [.label 1, .label 1, .halt] = false := by decide
theorem test_prog_refuses_jump_to_no_label : progWellFormed [.goto 1, .halt] = false := by decide
theorem test_prog_refuses_branch_to_no_label :
    progWellFormed [.label 2, .ifGoto (.eq (.int 0) (.int 0)) 1] = false := by decide
theorem test_prog_accepts_run : progWellFormed (macroRun .nop 1 2 ++ [.halt]) = true := by decide

/-! ### Encodings: the words of R55 and R56, RSV then OP, and the vectors of section 2.1 -/

theorem test_decode_nop : decode (0b0000#4 ++ 0b0000#4) = .ok .nop := by decide
theorem test_decode_pack : decode (0b0000#4 ++ 0b0001#4) = .ok .pack := by decide
theorem test_decode_diff : decode (0b0000#4 ++ 0b0010#4) = .ok .diff := by decide
theorem test_decode_lookup : decode (0b0000#4 ++ 0b0011#4) = .ok .lookup := by decide
theorem test_decode_clrprev : decode (0b0000#4 ++ 0b0100#4) = .ok .clrprev := by decide
/-- V-E6 to V-E10. -/
theorem test_decode_refuses : decode 0x05#8 = .error (.reservedOpcode 5#4) ∧
    decode 0x0F#8 = .error (.reservedOpcode 15#4) ∧ decode 0x10#8 = .error (.reservedBits 1#4) ∧
    decode 0x81#8 = .error (.reservedBits 8#4) ∧ decode 0xFF#8 = .error (.reservedBits 15#4) := by decide
/-- V-E11 to V-E13. -/
theorem test_decodeWrite_ignores_high_byte : decodeWrite 0x0101#16 = .ok .pack ∧ decodeWrite 0xFF04#16 = .ok .clrprev ∧
    decodeWrite 0x0105#16 = .error (.reservedOpcode 5#4) := by decide
theorem test_decodeBytes_takes_one_byte : decodeBytes [0x02#8, 0x7F#8] = some (.ok .diff, [0x7F#8]) := by decide
theorem test_decodeTableWord : [0, 1, 2, 3, 4, 5].map (decodeTableWord 8) =
    [some .nop, some .pack, some .diff, some .lookup, some .clrprev, none] := by decide
/-- V-E14 to V-E19. -/
theorem test_coordWords : coordPair 0x0000#16 = (0, 0) ∧ coordPair 0x007F#16 = (127, 0) ∧ coordPair 0x0080#16 = (0, 1) ∧
    coordPair 0x0105#16 = (5, 2) ∧ coordPair 0x1964#16 = (100, 50) ∧ coordPair 0x1FFF#16 = (127, 63) := by decide

/-! ### Small states -/

/-- After reset, with a command word pending. -/
def pending (w : BitVec 8) : State := accept w State.reset
/-- After reset, with a Host program and turns. -/
def hosted (prog : List Stmt) (turns : List Turn) : State :=
  { State.reset with host := { prog := prog, pos := 0, vars := [], halted := false }, schedule := turns }
/-- A state with the STATUS flags DONE, ERR_ILLEGAL, ERR_BUSY and CTRL fields given. -/
def flagged (d i b ed ee : Bool) : State :=
  { State.reset with done := d, errIllegal := i, errBusy := b, ieDone := ed, ieErr := ee }
/-- After reset, with LOOKUP's operands written. -/
def at_ (x y : BitVec 16) : State := { State.reset with lkX := x, lkY := y }
/-- After reset, with SMP holding the listed samples. -/
def sampled (S : List (BitVec 8)) : State := { State.reset with smp := Memory.ofList S }
/-- 8192 samples above 1. -/
def threes : List (BitVec 8) := List.replicate 8192 3#8
/-- A frame whose byte 0 is `b` and whose other bytes are 0x00. -/
def frame (b : Byte) : List Byte := b :: List.replicate 1023 0x00#8
/-- PREV holds the frame P and PKD the frame Q. -/
def framed (P Q : List Byte) : State := { State.reset with prev := prevOfFrame P, pkd := Memory.ofList Q }
/-- PREV: only pixel (0, 0) white (Scenario A); PKD: only pixels (1, 0) and (7, 0). -/
def twoFrames : State := framed (frame 0x80#8) (frame 0x41#8)

theorem holds_ofList {w : Nat} (vs : List (BitVec w)) : Memory.holds (Memory.ofList vs) vs := fun i _ => read_ofList vs i
theorem length_threes : threes.length = 8192 := List.length_replicate
theorem isFrame_frame (b : Byte) : isFrame (frame b) := by
  rw [isFrame, frame, List.length_cons, List.length_replicate]
theorem prevFrame_framed {P : List Byte} (Q : List Byte) (h : isFrame P) : prevFrame (framed P Q).prev = P :=
  prevFrame_prevOfFrame h
theorem prevFrame_twoFrames : prevFrame twoFrames.prev = frame 0x80#8 := prevFrame_framed _ (isFrame_frame _)
theorem holds_twoFrames : Memory.holds twoFrames.pkd (frame 0x41#8) := holds_ofList _
theorem written_sampled {S : List (BitVec 8)} {n : Nat} (h : S.length = n) : ∀ i < n, Memory.read (sampled S).smp i ≠ none := by
  intro i hi
  rw [show (sampled S).smp = Memory.ofList S from rfl, read_ofList, List.getElem?_eq_getElem (h ▸ hi)]
  exact Option.some_ne_none _
theorem pack_full {s : State} {S : List (BitVec 8)} (hl : S.length = 8192) (h : Memory.holds s.smp S) :
    ∃ t, exec .pack s = .next t ∧ t.lkX = s.lkX ∧ t.lkY = s.lkY := ⟨_, execPack_of_holds hl h, rfl, rfl⟩
theorem diff_full {s : State} {Q : List Byte} (hQ : isFrame Q) (h : Memory.holds s.pkd Q) :
    ∃ t, exec .diff s = .next t ∧ t.pkd = s.pkd ∧
      t.w2b = Memory.ofList ((whiteToBlack (prevFrame s.prev) Q).map coordWord) ∧
      t.b2w = Memory.ofList ((blackToWhite (prevFrame s.prev) Q).map coordWord) ∧
      t.w2bCnt = BitVec.ofNat 14 (whiteToBlack (prevFrame s.prev) Q).length ∧
      t.b2wCnt = BitVec.ofNat 14 (blackToWhite (prevFrame s.prev) Q).length :=
  ⟨_, execDiff_of_holds hQ h, by simp⟩
theorem diff_twoFrames : ∃ t, exec .diff twoFrames = .next t := by
  obtain ⟨t, h, -⟩ := diff_full (isFrame_frame _) holds_twoFrames
  exact ⟨t, h⟩

/-! ### One step, from the vectors of section 2 -/

/-- V-K18: NOP. -/
theorem test_nop : ∃ t, step (pending 0x00#8) = .next t ∧ statusWord t = 0x02#8 ∧ t.cmd = 0x00#8 :=
  ⟨_, rfl, by decide, rfl⟩
/-- V-K11: accepting a NOP clears DONE. -/
theorem test_accept_clears_done : ∃ t, hostWrite (flagged true false false false false) (.reg 0#4) 0x0000#16 = .ok t ∧
    statusWord t = 0x01#8 := ⟨_, rfl, by decide⟩
/-- V-P4, V-P5, V-P3: bit order in a byte, the byte boundary, 255 and 3 are white. -/
theorem test_packBits : packBits (([0, 1, 0, 1, 0, 1, 0, 1, 3, 0, 0, 0, 0, 0, 0, 255] : List (BitVec 8)).map pix) =
    [0x55#8, 0x81#8] := by decide
/-- PACK of an unwritten SMP faults at the first sample. -/
theorem test_pack_unwritten : exec .pack State.reset = .fault (.uninit .engine (.smp 0#13)) := rfl
/-- V-D3: both lists in one byte. -/
theorem test_transitions_one_byte : transitions 0 (unpack [0xF0#8]) (unpack [0x3C#8]) = ([0, 1], [4, 5]) := by decide
/-- V-D6: the lists interleave across a byte boundary (bytes 16 and 17 hold pixels 128 to 143). -/
theorem test_transitions_two_bytes : transitions 128 (unpack [0x01#8, 0x80#8]) (unpack [0x80#8, 0x01#8]) =
    ([0x87, 0x88], [0x80, 0x8F]) := by decide
/-- V-L1, V-L4, V-L5, V-L6, V-L7, V-L10. -/
theorem test_lookup_valid : lookupResult 0x0000#16 0x0000#16 = (0x9C00#16, 0x80#8) ∧
    lookupResult 0x007F#16 0x0000#16 = (0x800F#16, 0x01#8) ∧ lookupResult 0x0000#16 0x0001#16 = (0x9C10#16, 0x80#8) ∧
    lookupResult 0x0005#16 0x0002#16 = (0x8820#16, 0x04#8) ∧ lookupResult 0x0064#16 0x0032#16 = (0x8F2C#16, 0x08#8) ∧
    lookupResult 0x007F#16 0x003F#16 = (0x83FF#16, 0x01#8) := by decide
/-- V-L11 to V-L16. -/
theorem test_lookup_invalid : [(0x0080#16, 0x0000#16), (0x0000#16, 0x0040#16), (0xFFFF#16, 0x0000#16),
    (0x0000#16, 0xFFFF#16), (0x7FFF#16, 0x0000#16), (0x8000#16, 0x0005#16)].all
      (fun p => lookupResult p.1 p.2 == (0x0000#16, 0x00#8)) = true := by decide
/-- The worked example of R80: PREV[5] = 0x3C, then CLRPREV. -/
theorem test_clrprev : ∃ t, exec .clrprev { State.reset with prev := [(5, 0x3C#8)] } = .next t ∧ prevByte t.prev 5 = 0x00#8 :=
  ⟨_, rfl, by rw [complete_prev, storePrev_prev, prevByte_prevOfFrame, zeroFrame, List.getD_replicate _ (by decide)]⟩
/-- V-K3, V-K4: a CMD write while BUSY sets ERR_BUSY only. -/
theorem test_cmd_while_busy : ∀ v ∈ [0x0002#16, 0x0007#16], ∃ t, hostWrite (pending 0x01#8) (.reg 0#4) v = .ok t ∧
    statusWord t = 0x09#8 ∧ t.cmd = 0x01#8 := by
  intro v hv
  simp only [List.mem_cons, List.not_mem_nil, or_false] at hv
  rcases hv with rfl | rfl <;> exact ⟨_, rfl, by decide, rfl⟩
/-- V-K8, V-K9, V-K10: STATUS writes. -/
theorem test_status_write : statusWord (writeStatus 0x0001#16 (flagged true false false false false)) = 0x02#8 ∧
    statusWord (writeStatus 0x0004#16 (flagged true true true false false)) = 0x0A#8 ∧
    statusWord (writeStatus 0x00F0#16 (flagged true true true false false)) = 0x0E#8 := by decide
/-- V-K13. -/
theorem test_ctrl_write : ctrlWord (writeCtrl 0xFFFF#16 State.reset) = 0x03#8 := by decide
/-- V-I3 to V-I7. -/
theorem test_irq : irq (flagged true false false true false) = true ∧ irq (flagged true false false false true) = false ∧
    irq (flagged false true false false true) = true ∧ irq (flagged false false true false true) = true ∧
    irq (flagged false true true true false) = false := by decide
/-- V-M1, V-M3. -/
theorem test_read_after_reset : hostRead State.reset (.smp 0#13) = .error (.uninit .host (.smp 0#13)) ∧
    hostRead State.reset (.prev 5#10) = .ok 0x00#8 := by decide
/-- V-M8. -/
theorem test_write_while_busy : hostWrite (pending 0x00#8) (.smp 0#13) 1#8 = .error (.hazard (.smp 0#13)) := rfl
/-- A negative coordinate is written as its two's complement word (R65); 65536 does not fit, and is never truncated (R123). -/
theorem test_toBits : toBits 16 (-3) = 0xFFFD#16 ∧ toBits 16 65535 = 0xFFFF#16 ∧ fits 16 65536 = false ∧
    fits 8 256 = false := by decide
/-- The operators of R7 and R8 on the values of program P2 and of V-L6, V-L7, V-L13, V-D3. -/
theorem test_expr_operators : ([.slice 9 0 (.int 0x8820), .slice 15 15 (.int 0x8820), .band 8 (.int 0x80) (.bnot 8 (.int 0x80)),
    .bor 8 (.int 0x00) (.int 0x04), .shl (.int 1) (.int 3), .shr (.int 0x80) (.int 5),
    .concat 3 13 (.int 4) (.concat 3 10 (.int 3) (.int 812)), .sint 16 (.int 0xFFFF), .sext 16 8 (.int 0xFD),
    .popcount 8 (.bxor 8 (.int 0xF0) (.int 0x3C))] : List Expr).map (evalExpr []) =
    [32, 1, 0x00, 0x04, 0x08, 0x04, 0x8F2C, -1, 0xFFFD, 4] := by decide
/-- An unset variable and a too wide operand stop nothing: the step goes on with a free value (log 4). -/
theorem test_free_values_run : (∃ t, step (hosted [.assign 1 (.int 0) (.band 8 (.var 2) (.int 256))] []) = .next t ∧
      t.host.pos = 1) ∧ ∃ t, step (hosted [.wr .smp (.int 9000) (.int 256)] []) = .next t ∧ t.host.pos = 1 :=
  ⟨⟨_, rfl, rfl⟩, _, rfl, rfl⟩
/-- The loads of R65 from a Host list variable and from constants. -/
theorem test_load_macros : writeAll .pkd 2 (fun k => .cell 7 (.int k)) =
      [.wr .pkd (.int 0) (.cell 7 (.int 0)), .wr .pkd (.int 1) (.cell 7 (.int 1))] ∧
    writeAll .pkd 2 (listed [0x80#8, 0x01#8]) = [.wr .pkd (.int 0) (.int 0x80), .wr .pkd (.int 1) (.int 0x01)] := by decide
/-- The memory keeps its indices rising whatever the order of the writes. -/
theorem test_memory_write_sorted : Memory.write (Memory.write (Memory.write [] 5 1#8) 2 2#8) 5 3#8 = [(2, 2#8), (5, 3#8)] := by
  decide
/-- The first step after reset with a placed word performs the word. -/
theorem test_placed_clrprev : ∃ t, step (State.reset.withFetchWord 8 4) = .next t ∧ t.cmd = 0x04#8 ∧ statusWord t = 0x02#8 :=
  ⟨_, rfl, rfl, rfl⟩
theorem test_placed_pack : step (State.reset.withFetchWord 8 1) = .fault (.uninit .engine (.smp 0#13)) := rfl

/-! ### Witnesses: for every statement with hypotheses, a concrete state and operands that meet them -/

theorem test_witness_ResetValues : ∃ t, t = resetBlock (pending 0x04#8) ∧ t ≠ pending 0x04#8 :=
  ⟨_, rfl, by decide⟩
theorem test_witness_ResetAbandonsPendingCommand :
    ({ pending 0x01#8 with schedule := [.reset] } : State).schedule = .reset :: [] ∧ (pending 0x01#8).phase = .busy :=
  ⟨rfl, rfl⟩
theorem test_witness_DecodeEncodeAgree : decode 0x04#8 = .ok .clrprev := by decide
/-- One value for each clause, at the edges of the ranges. -/
theorem test_witness_CmdWriteDecoding : (0x0010#16).extractLsb' 4 4 ≠ 0#4 ∧
    ((0x0005#16).extractLsb' 4 4 = 0#4 ∧ 5 ≤ ((0x0005#16).extractLsb' 0 4).toNat) ∧
    ((0xFF04#16).extractLsb' 4 4 = 0#4 ∧ ((0xFF04#16).extractLsb' 0 4).toNat ≤ 4) := by decide
theorem test_witness_CmdWriteClassified : (pending 0x00#8).phase = .busy ∧
    (State.reset.phase = .idle ∧ ∀ i, decode ((0x0105#16).extractLsb' 0 8) ≠ .ok i) ∧
    (State.reset.phase = .idle ∧ ∃ i, decode ((0xFF04#16).extractLsb' 0 8) = .ok i) :=
  ⟨rfl, ⟨rfl, by intro i; cases i <;> decide⟩, rfl, .clrprev, by decide⟩
theorem test_witness_LookupOperandWrite : (at_ 1#16 2#16).phase = .idle ∧ (pending 0x03#8).phase = .busy := ⟨rfl, rfl⟩
theorem test_witness_ReadOnlyWritesIgnored : (at_ 1#16 2#16).phase = .idle := rfl
theorem test_witness_ReservedRegisters : 9 ≤ (9#4).toNat ∧ 9 ≤ (15#4).toNat := by decide
/-- The registers at both edges of the blocked set, and a memory element. -/
theorem test_witness_BlockedSetFaultsWhileBusy : (pending 0x00#8).phase = .busy ∧
    (3 ≤ (3#4).toNat ∧ (3#4).toNat ≤ 8) ∧ (3 ≤ (8#4).toNat ∧ (8#4).toNat ≤ 8) ∧ (2#4).toNat < 3 ∧ 8 < (9#4).toNat ∧
    ∀ i : BitVec 4, Loc.smp 8191#13 = .reg i → 3 ≤ i.toNat ∧ i.toNat ≤ 8 :=
  ⟨rfl, by decide, by decide, by decide, by decide, fun _ h => nomatch h⟩
/-- Idle, with SMP[8191] written and the rest unwritten. -/
theorem test_witness_UnwrittenHostReadFaults : ∃ s : State, s.phase = .idle ∧
    Memory.read s.smp (8191#13).toNat = some 7#8 ∧ Memory.read s.smp (0#13).toNat = none :=
  ⟨{ State.reset with smp := [(8191, 7#8)] }, rfl, by decide, by decide⟩
theorem test_witness_HostMemoryWriteReadsBack : (at_ 1#16 2#16).phase = .idle ∧ Loc.smp 1#13 ≠ .smp 0#13 ∧
    Loc.reg 0#4 ≠ .pkd 1023#10 := by decide
/-- BUSY for the clauses at any phase, idle for the others. -/
theorem test_witness_RegisterReads : (at_ 0xFFFF#16 0x8000#16).phase = .idle ∧ (pending 0x01#8).phase = .busy := ⟨rfl, rfl⟩

theorem test_witness_PackWritesPackedFrame : ∀ i < 8192, Memory.read (sampled threes).smp i ≠ none :=
  written_sampled length_threes
/-- The last sample alone unwritten (V-P12). -/
theorem test_witness_PackFaultsAtFirstUnwrittenSample : ∃ s : State, ∃ i < 8192, Memory.read s.smp i = none ∧
    (∀ j < i, Memory.read s.smp j ≠ none) ∧ i = 8191 := by
  refine ⟨sampled (List.replicate 8191 3#8), 8191, by decide, ?_, written_sampled List.length_replicate, rfl⟩
  rw [show (sampled (List.replicate 8191 3#8)).smp = Memory.ofList (List.replicate 8191 3#8) from rfl, read_ofList,
    List.getElem?_replicate, if_neg (Nat.lt_irrefl _)]
/-- A full SMP of samples above 1; a loaded bit sequence; a frame that is not all zero. -/
theorem test_witness_PackUnpackRoundTrip :
    (threes.length = 8192 ∧ Memory.holds (sampled threes).smp threes) ∧
    (∃ (s : State) (seq : List Bool), seq.length = 8192 ∧
      Memory.holds s.smp (seq.map fun p => if p then 1#8 else 0#8)) ∧
    ∃ s : State, isFrame (frame 0x80#8) ∧
      Memory.holds s.smp ((unpack (frame 0x80#8)).map fun p => if p then 1#8 else 0#8) := by
  have load : ∀ seq : List Bool, ∃ s : State, Memory.holds s.smp (seq.map fun p => if p then 1#8 else 0#8) :=
    fun _ => ⟨sampled _, holds_ofList _⟩
  obtain ⟨s, h⟩ := load (List.replicate 8192 true)
  obtain ⟨s', h'⟩ := load (unpack (frame 0x80#8))
  exact ⟨⟨length_threes, holds_ofList _⟩, ⟨s, _, List.length_replicate, h⟩, s', isFrame_frame _, h'⟩
/-- The last pixel. -/
theorem test_witness_PackPlacement : (∀ i < 8192, Memory.read (sampled threes).smp i ≠ none) ∧ 127 < 128 ∧ 63 < 64 :=
  ⟨written_sampled length_threes, by decide, by decide⟩
theorem test_witness_PackIsRepeatable : ∃ t, exec .pack (sampled threes) = .next t := by
  obtain ⟨t, h, -⟩ := pack_full (s := sampled threes) length_threes (holds_ofList threes)
  exact ⟨t, h⟩

theorem test_witness_DiffWritesTransitions : isFrame (frame 0x41#8) ∧ Memory.holds twoFrames.pkd (frame 0x41#8) ∧
    prevFrame twoFrames.prev = frame 0x80#8 := ⟨isFrame_frame _, holds_twoFrames, prevFrame_twoFrames⟩
/-- The last byte alone unwritten (V-D12). -/
theorem test_witness_DiffFaultsAtFirstUnwrittenByte : ∃ s : State, ∃ k < 1024, Memory.read s.pkd k = none ∧
    (∀ j < k, Memory.read s.pkd j ≠ none) ∧ k = 1023 := by
  have h : ∀ n j, Memory.read (framed [] (List.replicate n 3#8)).pkd j = if j < n then some 3#8 else none := by
    intro n j
    rw [show (framed [] (List.replicate n 3#8)).pkd = Memory.ofList (List.replicate n 3#8) from rfl, read_ofList,
      List.getElem?_replicate]
  refine ⟨framed [] (List.replicate 1023 3#8), 1023, by decide, ?_, fun j hj => ?_, rfl⟩
  · rw [h, if_neg (Nat.lt_irrefl _)]
  · rw [h, if_pos hj]; exact Option.some_ne_none _
theorem test_witness_DiffComputesByteLanes : isFrame (frame 0x41#8) ∧
    Memory.holds twoFrames.pkd (frame 0x41#8) ∧ ∃ t, exec .diff twoFrames = .next t :=
  ⟨isFrame_frame _, holds_twoFrames, diff_twoFrames⟩
/-- Two entries in B2W, so two indices below the count. -/
theorem test_witness_DiffListsAscend : ∃ t, exec .diff twoFrames = .next t ∧ 0 < 1 ∧
    1 < (blackToWhite (prevFrame twoFrames.prev) (frame 0x41#8)).length := by
  obtain ⟨t, h⟩ := diff_twoFrames
  refine ⟨t, h, by decide, ?_⟩
  rw [prevFrame_twoFrames]
  have sub : [1, 7] ⊆ blackToWhite (frame 0x80#8) (frame 0x41#8) := by
    intro i hi
    rw [blackToWhite, pixelsWhere, List.mem_filter, List.mem_range]
    simp only [List.mem_cons, List.not_mem_nil, or_false] at hi
    rcases hi with rfl | rfl <;> exact ⟨by decide, by decide⟩
  exact (List.subperm_of_subset (by decide) sub).length_le
theorem test_witness_DiffListsPartitionChangedPixels : isFrame (frame 0x41#8) ∧
    Memory.holds twoFrames.pkd (frame 0x41#8) ∧ ∃ t, exec .diff twoFrames = .next t :=
  ⟨isFrame_frame _, holds_twoFrames, diff_twoFrames⟩
theorem test_witness_DiffCountsArePopcounts : isFrame (frame 0x41#8) ∧
    Memory.holds twoFrames.pkd (frame 0x41#8) ∧ ∃ t, exec .diff twoFrames = .next t :=
  ⟨isFrame_frame _, holds_twoFrames, diff_twoFrames⟩
/-- PREV = PKD before DIFF; and two DIFFs in a row. -/
theorem test_witness_DiffIdempotent :
    (∃ s t : State, Memory.holds s.pkd (prevFrame s.prev) ∧ exec .diff s = .next t) ∧
    ∃ t u : State, exec .diff twoFrames = .next t ∧ exec .diff t = .next u := by
  constructor
  · have same : ∀ P : List Byte, isFrame P → Memory.holds (framed P P).pkd (prevFrame (framed P P).prev) :=
      fun P h => by rw [prevFrame_framed P h]; exact holds_ofList P
    obtain ⟨t, h, -⟩ := diff_full (length_prevFrame _) (same _ (isFrame_frame 0x80#8))
    exact ⟨_, t, same _ (isFrame_frame 0x80#8), h⟩
  · obtain ⟨t, h, e, -⟩ := diff_full (isFrame_frame _) holds_twoFrames
    obtain ⟨u, h', -⟩ := diff_full (s := t) (isFrame_frame 0x41#8) (by rw [e]; exact holds_twoFrames)
    exact ⟨t, u, h, h'⟩
/-- The entries in reverse order. -/
theorem test_witness_DeltaCorrectness : ∃ t, isFrame (frame 0x41#8) ∧ Memory.holds twoFrames.pkd (frame 0x41#8) ∧
    exec .diff twoFrames = .next t ∧ t.entries.reverse.Perm t.entries := by
  obtain ⟨t, h⟩ := diff_twoFrames
  exact ⟨t, isFrame_frame _, holds_twoFrames, h, List.reverse_perm _⟩
theorem prevFrame_reset : prevFrame State.reset.prev = zeroFrame := by
  apply List.ext_getElem?
  intro k
  rcases Nat.lt_or_ge k Config.nbytes with hk | hk
  · rw [getElem?_prevFrame _ hk, zeroFrame, List.getElem?_replicate, if_pos hk]; rfl
  · rw [List.getElem?_eq_none (by rw [length_prevFrame]; exact hk),
      List.getElem?_eq_none (by rw [zeroFrame, List.length_replicate]; exact hk)]
theorem test_witness_SequentialReplayEquivalence : prevFrame State.reset.prev = zeroFrame ∧
    ∀ Q ∈ [frame 0x80#8, frame 0x41#8, frame 0x80#8], isFrame Q := by
  refine ⟨prevFrame_reset, fun Q hQ => ?_⟩
  simp only [List.mem_cons, List.not_mem_nil, or_false] at hQ
  rcases hQ with rfl | rfl | rfl <;> exact isFrame_frame _
/-- Every clause: the element below the count and the element at it, of both lists. -/
theorem test_witness_ListReadsEndAtCount : ∃ s t : State, exec .diff s = .next t ∧
    (8191#13).toNat < t.w2bCnt.toNat ∧ t.b2wCnt.toNat ≤ (0#13).toNat ∧
    ∃ s' t' : State, exec .diff s' = .next t' ∧ t'.w2bCnt.toNat ≤ (0#13).toNat ∧ (8191#13).toNat < t'.b2wCnt.toNat := by
  have full : ∀ P Q : List Byte, (∀ i < 8192, frameBit P i = true) → (∀ i < 8192, frameBit Q i = false) →
      (whiteToBlack P Q).length = 8192 ∧ (whiteToBlack Q P).length = 0 ∧ (blackToWhite P Q).length = 0 ∧
      (blackToWhite Q P).length = 8192 := by
    intro P Q hP hQ
    have a : ∀ f : Nat → Bool, (∀ i < 8192, f i = true) → (pixelsWhere Config.npix f).length = 8192 := by
      intro f hf
      rw [pixelsWhere, List.filter_eq_self.2 (fun i hi => hf i (List.mem_range.1 hi)), List.length_range]
    have b : ∀ f : Nat → Bool, (∀ i < 8192, f i = false) → (pixelsWhere Config.npix f).length = 0 := by
      intro f hf
      rw [pixelsWhere, List.filter_eq_nil_iff.2 (fun i hi => by simp [hf i (List.mem_range.1 hi)]), List.length_nil]
    exact ⟨a _ fun i hi => by rw [hP i hi, hQ i hi]; rfl, b _ fun i hi => by rw [hP i hi, hQ i hi]; rfl,
      b _ fun i hi => by rw [hP i hi, hQ i hi]; rfl, a _ fun i hi => by rw [hP i hi, hQ i hi]; rfl⟩
  have bits : ∀ (b : Byte) (i : Nat), i < 8192 → frameBit (List.replicate 1024 b) i = b.getLsbD (7 - i % 8) := by
    intro b i hi
    rw [frameBit, List.getD_replicate _ (by omega)]
  have white : ∀ i < 8192, frameBit (List.replicate 1024 0xFF#8) i = true := by
    intro i hi
    rw [bits _ i hi]
    have : 7 - i % 8 < 8 := by omega
    generalize 7 - i % 8 = j at *
    revert j; decide
  have black : ∀ i < 8192, frameBit (List.replicate 1024 0x00#8) i = false := by
    intro i hi
    rw [bits _ i hi]; exact BitVec.getLsbD_zero
  obtain ⟨h1, h2, h3, h4⟩ := full _ _ white black
  have fr : ∀ b : Byte, isFrame (List.replicate 1024 b) := fun b => List.length_replicate
  have run : ∀ P Q : List Byte, isFrame P → isFrame Q → ∃ s t : State, exec .diff s = .next t ∧
      t.w2bCnt = BitVec.ofNat 14 (whiteToBlack P Q).length ∧ t.b2wCnt = BitVec.ofNat 14 (blackToWhite P Q).length := by
    intro P Q hP hQ
    obtain ⟨t, h, -, -, -, a, b⟩ := diff_full (s := framed P Q) hQ (holds_ofList Q)
    rw [prevFrame_framed Q hP] at a b
    exact ⟨_, t, h, a, b⟩
  obtain ⟨s, t, e, a, b⟩ := run _ _ (fr 0xFF#8) (fr 0x00#8)
  obtain ⟨s', t', e', a', b'⟩ := run _ _ (fr 0x00#8) (fr 0xFF#8)
  refine ⟨s, t, e, ?_, ?_, s', t', e', ?_, ?_⟩
  · rw [a, h1]; decide
  · rw [b, h3]; decide
  · rw [a', h2]; decide
  · rw [b', h4]; decide
/-- W2B[0] is pixel 0 and B2W[0] pixel 1. -/
theorem test_witness_ListEntriesAreCoordinates : ∃ t, isFrame (frame 0x41#8) ∧
    Memory.holds twoFrames.pkd (frame 0x41#8) ∧ exec .diff twoFrames = .next t ∧
    (∃ w, Memory.read t.w2b 0 = some w) ∧ ∃ w, Memory.read t.b2w 0 = some w := by
  have ne : ∀ (f : Nat → Bool) (i : Nat), i < 8192 → f i = true →
      ∃ w, Memory.read (Memory.ofList ((pixelsWhere Config.npix f).map coordWord)) 0 = some w := by
    intro f i hi hf
    have : i ∈ pixelsWhere Config.npix f := List.mem_filter.2 ⟨List.mem_range.2 hi, hf⟩
    rw [read_ofList]
    cases h : pixelsWhere Config.npix f with
    | nil => rw [h] at this; cases this
    | cons a l => exact ⟨coordWord a, rfl⟩
  obtain ⟨t, h, -, a, b, -⟩ := diff_full (isFrame_frame _) holds_twoFrames
  rw [prevFrame_twoFrames] at a b
  refine ⟨t, isFrame_frame _, holds_twoFrames, h, ?_, ?_⟩
  · rw [a]; exact ne _ 0 (by decide) (by decide)
  · rw [b]; exact ne _ 1 (by decide) (by decide)
/-- Two states with the same frames and different LK_X. -/
theorem test_witness_DiffDependsOnFramesOnly : ∃ s t s' t' : State, s ≠ s' ∧ isFrame (frame 0x41#8) ∧
    Memory.holds s.pkd (frame 0x41#8) ∧ Memory.holds s'.pkd (frame 0x41#8) ∧ prevFrame s.prev = prevFrame s'.prev ∧
    exec .diff s = .next t ∧ exec .diff s' = .next t' := by
  obtain ⟨t, h, -⟩ := diff_full (isFrame_frame _) holds_twoFrames
  obtain ⟨t', h', -⟩ := diff_full (s := writeLkX 1#16 twoFrames) (isFrame_frame _) holds_twoFrames
  refine ⟨twoFrames, t, writeLkX 1#16 twoFrames, t', fun e => ?_, isFrame_frame _, holds_twoFrames, holds_twoFrames,
    by rw [writeLkX_prev], h, h'⟩
  have : (0x0000#16 : BitVec 16) = 1#16 := congrArg State.lkX e
  exact absurd this (by decide)
theorem test_witness_DiffAgainstBlackIsFullFrame : ∃ s : State, (∀ k < 1024, prevByte s.prev k = 0x00#8) ∧
    isFrame (frame 0x41#8) ∧ Memory.holds s.pkd (frame 0x41#8) :=
  ⟨framed [] (frame 0x41#8), fun _ _ => rfl, isFrame_frame _, holds_ofList _⟩

/-- The first and the last pixel. -/
theorem test_witness_LookupInBounds :
    ((at_ 0x0000#16 0x0000#16).lkX.toInt = 0 ∧ (at_ 0x0000#16 0x0000#16).lkY.toInt = 0) ∧
    ((at_ 0x007F#16 0x003F#16).lkX.toInt = 127 ∧ (at_ 0x007F#16 0x003F#16).lkY.toInt = 63) := by decide
/-- x = 128, y = 64, x = -1, y = -1. -/
theorem test_witness_LookupOutOfBounds : ∀ s ∈ [at_ 0x0080#16 0x0000#16, at_ 0x0000#16 0x0040#16, at_ 0xFFFF#16 0x0000#16,
    at_ 0x0000#16 0xFFFF#16], ¬(0 ≤ s.lkX.toInt ∧ s.lkX.toInt < 128 ∧ 0 ≤ s.lkY.toInt ∧ s.lkY.toInt < 64) := by decide
/-- Both clauses at the last pixel: LOOKUP alone, and LOOKUP after PACK. -/
theorem test_witness_LookupAgreesWithPacking : ∃ s t u : State, s.lkX.toInt = 127 ∧ s.lkY.toInt = 63 ∧
    isFrame (frame 0x80#8) ∧ (∃ v, exec .lookup s = .next v) ∧ exec .pack s = .next t ∧ exec .lookup t = .next u := by
  obtain ⟨t, h, -⟩ := pack_full (s := writeLkX 0x007F#16 (writeLkY 0x003F#16 (sampled threes))) length_threes
    (holds_ofList threes)
  exact ⟨_, t, _, by decide, by decide, isFrame_frame _, ⟨_, rfl⟩, h, rfl⟩
theorem test_witness_LookupAgreesWithCoordinateWords : coordWordWellFormed 0x1FFF#16 = true ∧
    (at_ 0x007F#16 0x003F#16).lkX = ((0x1FFF#16).extractLsb' 0 7).zeroExtend 16 ∧
    (at_ 0x007F#16 0x003F#16).lkY = ((0x1FFF#16).extractLsb' 7 6).zeroExtend 16 := by decide
theorem test_witness_ConsumerWritesOnePixel : (at_ 0x0005#16 0x0002#16).lkX.toInt = 5 ∧
    (at_ 0x0005#16 0x0002#16).lkY.toInt = 2 ∧ isFrame (frame 0x41#8) ∧ ∃ t, exec .lookup (at_ 0x0005#16 0x0002#16) = .next t :=
  ⟨by decide, by decide, isFrame_frame _, _, rfl⟩

/-- Both clauses: the Engine's turn scheduled, and no turn scheduled. -/
theorem test_witness_StepRunsPendingCommand : (pending 0x04#8).faultRecord = [] ∧ (pending 0x04#8).phase = .busy ∧
    decode (pending 0x04#8).cmd = .ok .clrprev ∧ (pending 0x04#8).schedule = [] ∧
    ({ pending 0x04#8 with schedule := [.engine] } : State).schedule = .engine :: [] := ⟨rfl, rfl, rfl, rfl, rfl⟩
theorem test_witness_PlacedWordRunsNext : decodeTableWord 8 2 = some .diff := by decide
/-- Every clause: a statement that completes and one that faults, with a Host turn scheduled and with none. -/
theorem test_witness_StepRunsHostStatement :
    (∀ turns, (∃ t, runStmt (wrReg 2 3) (hosted [wrReg 2 3] turns) = .ok t) ∧
      (∃ r, runStmt (.rd 0 (.int 0) .smp (.int 0)) (hosted [.rd 0 (.int 0) .smp (.int 0)] turns) = .error r) ∧
      (hosted [wrReg 2 3] turns).host.prog[0]? = some (wrReg 2 3) ∧
      (hosted [wrReg 2 3] turns).host.halted = false ∧ (hosted [wrReg 2 3] turns).faultRecord = [] ∧
      (hosted [wrReg 2 3] turns).phase = .idle) ∧
    (hosted [wrReg 2 3] [.host]).schedule = .host :: [] ∧ (hosted [wrReg 2 3] []).schedule = [] :=
  ⟨fun _ => ⟨⟨_, rfl⟩, ⟨_, rfl⟩, rfl, rfl, rfl, rfl⟩, rfl, rfl⟩
theorem test_witness_CommandsWriteOnlyTheirResults : ∃ t, exec .lookup (at_ 0x0005#16 0x0002#16) = .next t := ⟨_, rfl⟩
/-- Both faults. -/
theorem test_witness_OnlyUninitArisesFromCommands : (∃ r, exec .pack State.reset = .fault r) ∧
    ∃ r, exec .diff State.reset = .fault r := ⟨⟨_, rfl⟩, _, rfl⟩

theorem inv_pending {S : List (BitVec 8)} {Q : List Byte} (w : BitVec 8) (hw : ∃ i, decode w = .ok i)
    (hs : S.length ≤ 8192) (hp : Q.length ≤ 1024) :
    ({ pending w with smp := Memory.ofList S, pkd := Memory.ofList Q } : State).Inv where
  cmd := hw
  counts := Nat.zero_le _
  lookup := show lookupConsistent 0x0000#16 0x00#8 by decide
  smp := ofList_wf hs
  pkd := ofList_wf hp
  prev := ⟨List.Pairwise.nil, fun _ h => (List.not_mem_nil h).elim⟩
  w2b := ⟨List.Pairwise.nil, fun _ h => (List.not_mem_nil h).elim⟩
  b2w := ⟨List.Pairwise.nil, fun _ h => (List.not_mem_nil h).elim⟩
  w2bList := ⟨rfl, fun _ h => (List.not_mem_nil h).elim, List.Pairwise.nil⟩
  b2wList := ⟨rfl, fun _ h => (List.not_mem_nil h).elim, List.Pairwise.nil⟩
  disjoint := fun _ h => (List.not_mem_nil h).elim
  record := ⟨List.nodup_nil, fun _ h => (List.not_mem_nil h).elim⟩
/-- A pending LOOKUP with no operand memory written, a pending PACK with SMP written and a pending DIFF with PKD written. -/
theorem test_witness_PendingCommandCompletes :
    (decode (pending 0x03#8).cmd = .ok .lookup ∧ (pending 0x03#8).phase = .busy ∧ (pending 0x03#8).faultRecord = [] ∧
      (pending 0x03#8).schedule = []) ∧
    (∃ s : State, decode s.cmd = .ok .pack ∧ s.phase = .busy ∧ s.faultRecord = [] ∧ s.schedule = [] ∧
      ∀ j < 8192, Memory.read s.smp j ≠ none) ∧
    ∃ s : State, decode s.cmd = .ok .diff ∧ s.phase = .busy ∧ s.faultRecord = [] ∧ s.schedule = [.engine] ∧
      ∀ k < 1024, Memory.read s.pkd k ≠ none := by
  refine ⟨by decide, ⟨accept 0x01#8 (sampled threes), by decide, rfl, rfl, rfl, written_sampled length_threes⟩,
    accept 0x02#8 (withSchedule [.engine] (framed [] (frame 0x80#8))), by decide, rfl, rfl, rfl, ?_⟩
  have all : ∀ (vs : List (BitVec 8)) (n : Nat), vs.length = n → ∀ i < n, Memory.read (Memory.ofList vs) i ≠ none :=
    fun vs n h => written_sampled h
  exact all _ _ (isFrame_frame _)
/-- The invariant with something in the memories, and a step from there. -/
theorem test_witness_StepKeepsInvariant : ∃ s t : State, s.Inv ∧ s.smp ≠ [] ∧ step s = .next t :=
  ⟨_, _, inv_pending (S := [1#8, 2#8]) (Q := [3#8]) 0x03#8 ⟨.lookup, by decide⟩ (by decide) (by decide),
    List.cons_ne_nil _ _, rfl⟩
/-- The Engine performs CLRPREV on a PREV that is not black. -/
theorem test_witness_PrevWrittenOnlyByDiffClrprevReset :
    ∃ t, step { pending 0x04#8 with prev := [(5, 0x3C#8)] } = .next t ∧ t.prev ≠ [(5, 0x3C#8)] := by
  refine ⟨_, rfl, fun h => ?_⟩
  have := congrArg (fun m => prevByte m 5) h
  simp only [complete_prev, storePrev_prev] at this
  rw [prevByte_prevOfFrame, zeroFrame, List.getD_replicate _ (by decide)] at this
  exact absurd this (by decide)
theorem test_witness_HostReadsHaveNoSideEffect :
    chooseTurn (hosted [.rd 0 (.int 0) .reg (.int 1)] [.host]) [.host] = some (.host, []) ∧
    ∃ t, step (hosted [.rd 0 (.int 0) .reg (.int 1)] [.host]) = .next t := ⟨rfl, _, rfl⟩
/-- A CMD write rejected as busy is a Host step while BUSY. -/
def busyHost : State := accept 0x01#8 (hosted [wrReg 0 2, wrReg 1 2, .halt] [.host, .host])
theorem test_witness_HostCannotDisturbPendingCommand : busyHost.phase = .busy ∧
    chooseTurn busyHost busyHost.schedule = some (.host, [.host]) ∧ ∃ t, step busyHost = .next t := ⟨rfl, rfl, _, rfl⟩
/-- Two Host steps while a LOOKUP is pending. -/
theorem test_witness_PendingCommandActsOnIssuedOperands : ∃ s u t : State, s.phase = .busy ∧ decode s.cmd = .ok .lookup ∧
    HostSteps s u ∧ u ≠ s ∧ exec .lookup s = .next t :=
  ⟨accept 0x03#8 (hosted [wrReg 0 2, wrReg 1 2, .halt] [.host, .host]), _, _, rfl, rfl,
    .more rfl rfl (.more rfl rfl (.none _)), fun h => absurd (congrArg State.schedule h) (by decide), rfl⟩
/-- A Host access to the blocked set while BUSY. -/
theorem test_witness_FaultEndsTheRun : ∃ s r, step s = .fault r ∧ r.isModelFault = true ∧ .reset ∉ s.schedule :=
  ⟨accept 0x00#8 (hosted [.wr .smp (.int 0) (.int 1)] [.host]), _, rfl, rfl, by decide⟩
/-- Both disjuncts and their contrary: a faulted state, an idle block with no Host statement, and a pending command. -/
theorem test_witness_StuckExactlyWhenNoAgentEnabled :
    step { pending 0x00#8 with faultRecord := [.hazard (.smp 0#13)] } = .fault .stuck ∧
    step State.reset = .fault .stuck ∧ ∃ t, step (pending 0x00#8) = .next t := ⟨rfl, rfl, _, rfl⟩
theorem test_witness_FaultRecordOnlyGrows :
    Fault.hazard (.smp 0#13) ∈ ({ State.reset with faultRecord := [.hazard (.smp 0#13)], schedule := [.reset] } : State).faultRecord := by
  decide
/-- ERR_BUSY raised while BUSY, ERR_ILLEGAL raised while IDLE. -/
theorem test_witness_ErrorFlagsRaisedOnlyByCmdWrites :
    (∃ t, step busyHost = .next t ∧ t.errBusy = true ∧ busyHost.errBusy = false) ∧
    ∃ t, step (hosted [wrReg 0 7] []) = .next t ∧ t.errIllegal = true ∧ (hosted [wrReg 0 7] []).errIllegal = false :=
  ⟨⟨_, rfl, rfl, rfl⟩, _, rfl, rfl, rfl⟩
/-- Every clause: a value at the edge of its width and an index at the edge of its space, WR that completes and WR that
faults, RD likewise, IF true and false, GOTO to a label defined and to one that is not. -/
theorem test_witness_HostStatementEffects :
    (-(2 ^ (16 - 1) : Int) ≤ 65535 ∧ (65535 : Int) < 2 ^ 16 ∧ 8191 < Space.smp.size) ∧
    (Space.reg.loc (evalExpr [] (.int 5)) = .reg 5#4 ∧ (∃ t, hostWrite State.reset (.reg 5#4) (toBits _ (-3)) = .ok t) ∧
      ∃ r, hostWrite (pending 0x00#8) (.reg 5#4) (toBits _ (-3)) = .error r) ∧
    (Space.prev.loc (evalExpr [] (.int 1023)) = .prev 1023#10 ∧
      hostRead State.reset (.prev 1023#10) = .ok 0x00#8 ∧
      hostRead (pending 0x00#8) (.prev 1023#10) = .error (.hazard (.prev 1023#10)) ∧
      hostRead State.reset (.pkd 1023#10) = .error (.uninit .host (.pkd 1023#10))) ∧
    evalCond [] (.eq (.int 1) (.int 1)) = true ∧ evalCond [] (.eq (.int 1) (.int 0)) = false ∧
    (hosted [.halt, .label 7, .halt] []).host.prog = [.halt] ++ .label 7 :: [.halt] ∧ Stmt.label 7 ∉ [Stmt.halt] ∧
    Stmt.label 8 ∉ (hosted [.halt, .label 7, .halt] []).host.prog :=
  ⟨by decide, ⟨rfl, ⟨_, rfl⟩, _, rfl⟩, ⟨rfl, rfl, rfl, rfl⟩, rfl, rfl, rfl, by decide, by decide⟩
/-- WAIT alone, with the block BUSY and with it IDLE. -/
theorem test_witness_WaitPollsBusy : ∀ s ∈ [hosted (macroWait 1 2) [.host, .host, .host],
      accept 0x00#8 (hosted (macroWait 1 2) [.host, .host, .host])],
    s.host.prog = [] ++ macroWait 1 2 ++ [] ∧ Stmt.label 1 ∉ ([] : List Stmt) ∧ s.host.pos = ([] : List Stmt).length ∧
    s.host.halted = false ∧ s.faultRecord = [] ∧ s.schedule = .host :: .host :: .host :: [] := by
  intro s hs
  simp only [List.mem_cons, List.not_mem_nil, or_false] at hs
  rcases hs with rfl | rfl <;> exact ⟨rfl, List.not_mem_nil, rfl, rfl, rfl, rfl⟩
/-- IDLE to BUSY by an accepted CMD write, and BUSY to IDLE by the Engine. -/
theorem test_witness_PhaseFollowsCommandProtocol :
    (∃ t, step (hosted [wrReg 0 4] []) = .next t ∧ (hosted [wrReg 0 4] []).phase = .idle ∧ t.phase = .busy) ∧
    ∃ t, step (pending 0x04#8) = .next t ∧ (pending 0x04#8).phase = .busy ∧ t.phase = .idle :=
  ⟨⟨_, rfl, rfl, rfl⟩, _, rfl, rfl, rfl⟩

end Sys2Proof.Tests
end

section
/-! The reset state (R35, R113) and the reserved registers (R26). -/

namespace Sys2Proof.Proofs

open Sys2Proof Sys2Proof.Machine Sys2Proof.Laws

/-! ### The views of the block right after reset -/

@[simp] theorem read_nil {w : Nat} (i : Nat) : Memory.read ([] : Memory w) i = none := rfl
@[simp] theorem prevByte_nil (k : Nat) : prevByte [] k = 0x00#8 := rfl
@[simp] theorem statusWord_resetBlock (s : State) : statusWord (resetBlock s) = 0x00#8 :=
  (by decide : statusWord State.reset = 0x00#8)
@[simp] theorem ctrlWord_resetBlock (s : State) : ctrlWord (resetBlock s) = 0x00#8 :=
  (by decide : ctrlWord State.reset = 0x00#8)
@[simp] theorem irq_resetBlock (s : State) : irq (resetBlock s) = false := rfl

/-- Reset changes nothing of the state a run starts in. -/
theorem resetBlock_reset : resetBlock State.reset = State.reset := rfl

/-- Settles O1: the registers are fields of the reset block, the memories have no element listed, and the words and the
interrupt line are computed from the cleared flags. -/
theorem resetValues : Obligations.ResetValues := by
  unfold Obligations.ResetValues
  refine ⟨resetBlock_reset.symm, rfl, ?_⟩
  rintro s t rfl
  simp [State.reset]

/-! ### Register accesses that are no hazard -/

/-- A Host read of a register that is no hazard returns the register's value (R38). -/
theorem hostRead_reg_of_not_hazard {s : State} {i : BitVec 4} (h : ¬(s.phase = .busy ∧ (Loc.reg i).blocked = true)) :
    hostRead s (.reg i) = .ok (readReg s i) := if_neg h

/-- A Host write to a register that is no hazard has the register's effect (R38). -/
theorem hostWrite_reg_of_not_hazard {s : State} {i : BitVec 4} (v : BitVec 16)
    (h : ¬(s.phase = .busy ∧ (Loc.reg i).blocked = true)) : hostWrite s (.reg i) v = .ok (writeReg i v s) := if_neg h

theorem blocked_reg {i : BitVec 4} : (Loc.reg i).blocked = true ↔ 3 ≤ i.toNat ∧ i.toNat ≤ 8 := decide_eq_true_iff

/-- A reserved register is outside the blocked set, so no access to it is a hazard (R26, R43). -/
theorem not_hazard_of_reserved (s : State) {i : BitVec 4} (h : 9 ≤ i.toNat) :
    ¬(s.phase = .busy ∧ (Loc.reg i).blocked = true) := by
  rw [blocked_reg]; omega

theorem readReg_of_reserved (s : State) {i : BitVec 4} (h : 9 ≤ i.toNat) : readReg s i = 0x0000#16 := by
  obtain ⟨n, hn⟩ := Nat.exists_eq_add_of_le' h
  simp only [readReg, hn]

theorem writeReg_of_reserved (s : State) {i : BitVec 4} (v : BitVec 16) (h : 9 ≤ i.toNat) : writeReg i v s = s := by
  obtain ⟨n, hn⟩ := Nat.exists_eq_add_of_le' h
  simp only [writeReg, hn]

/-- Settles O11: no access to a reserved register is a hazard, and both register tables give it their last row. -/
theorem reservedRegisters : Obligations.ReservedRegisters := by
  unfold Obligations.ReservedRegisters
  intro s i h
  have free := not_hazard_of_reserved s h
  constructor
  · rw [hostRead_reg_of_not_hazard free, readReg_of_reserved s h]
  · intro v
    rw [hostWrite_reg_of_not_hazard v free, writeReg_of_reserved s v h]

end Sys2Proof.Proofs
end

section
/-! The access table: hazards while BUSY (R40, R43) and the locations that ignore a Host write while IDLE (R41). -/

namespace Sys2Proof.Proofs

open Sys2Proof Sys2Proof.Machine

/-! ### Hazards -/

theorem hostRead_of_hazard {s : State} {l : Loc} (hp : s.phase = .busy) (hb : l.blocked = true) :
    hostRead s l = .error (.hazard l) := if_pos ⟨hp, hb⟩

theorem hostWrite_of_hazard {s : State} {l : Loc} (v : BitVec l.width) (hp : s.phase = .busy)
    (hb : l.blocked = true) : hostWrite s l v = .error (.hazard l) := if_pos ⟨hp, hb⟩

/-- The blocked set is every memory and REG 3 to 8 (R40). -/
theorem blocked_iff {l : Loc} : l.blocked = true ↔ ∀ i : BitVec 4, l = .reg i → 3 ≤ i.toNat ∧ i.toNat ≤ 8 := by
  cases l with
  | reg i =>
    rw [blocked_reg]
    exact ⟨fun h j hj => Loc.reg.inj hj ▸ h, fun h => h i rfl⟩
  | smp _ | pkd _ | prev _ | w2b _ | b2w _ => exact ⟨fun _ _ h => (nomatch h), fun _ => rfl⟩

/-- Settles O12: an access to the blocked set takes the hazard branch, and one to a register outside it answers from the
register tables. -/
theorem blockedSetFaultsWhileBusy : Obligations.BlockedSetFaultsWhileBusy := by
  unfold Obligations.BlockedSetFaultsWhileBusy
  intro s l hp
  constructor
  · intro h
    have hb := blocked_iff.2 h
    exact ⟨hostRead_of_hazard hp hb, fun v => hostWrite_of_hazard v hp hb⟩
  · rintro i rfl h
    have free : ¬(s.phase = .busy ∧ (Loc.reg i).blocked = true) := by
      rw [blocked_reg]; omega
    exact ⟨⟨_, hostRead_reg_of_not_hazard free⟩, fun v => ⟨_, hostWrite_reg_of_not_hazard v free⟩⟩

/-! ### Writes while IDLE -/

/-- While IDLE no Host access is a hazard (R43). -/
theorem not_hazard_of_idle {s : State} (h : s.phase = .idle) (l : Loc) : ¬(s.phase = .busy ∧ l.blocked = true) := by
  simp [h]

/-- The counts and the lookup results ignore a register write (R41). -/
theorem writeReg_of_readOnly (s : State) {i : BitVec 4} (v : BitVec 16) (h : i ∈ [3#4, 4#4, 7#4, 8#4]) :
    writeReg i v s = s := by
  simp only [List.mem_cons, List.not_mem_nil, or_false] at h
  rcases h with rfl | rfl | rfl | rfl <;> rfl

theorem hostWrite_reg_of_readOnly {s : State} {i : BitVec 4} (v : BitVec 16) (hs : s.phase = .idle)
    (h : i ∈ [3#4, 4#4, 7#4, 8#4]) : hostWrite s (.reg i) v = .ok s := by
  rw [hostWrite_reg_of_not_hazard v (not_hazard_of_idle hs _), writeReg_of_readOnly s v h]

theorem hostWrite_prev_of_idle {s : State} (k : BitVec 10) (v : BitVec 8) (hs : s.phase = .idle) :
    hostWrite s (.prev k) v = .ok s := if_neg (not_hazard_of_idle hs _)

theorem hostWrite_w2b_of_idle {s : State} (j : BitVec 13) (v : BitVec 16) (hs : s.phase = .idle) :
    hostWrite s (.w2b j) v = .ok s := if_neg (not_hazard_of_idle hs _)

theorem hostWrite_b2w_of_idle {s : State} (j : BitVec 13) (v : BitVec 16) (hs : s.phase = .idle) :
    hostWrite s (.b2w j) v = .ok s := if_neg (not_hazard_of_idle hs _)

/-- Settles O10: no write is a hazard while IDLE, and every read-only location ignores one that is none. -/
theorem readOnlyWritesIgnored : Obligations.ReadOnlyWritesIgnored := by
  unfold Obligations.ReadOnlyWritesIgnored
  intro s hs
  exact ⟨fun v => hostWrite_reg_of_readOnly v hs (by decide), fun v => hostWrite_reg_of_readOnly v hs (by decide),
    fun v => hostWrite_reg_of_readOnly v hs (by decide), fun v => hostWrite_reg_of_readOnly v hs (by decide),
    fun k v => hostWrite_prev_of_idle k v hs, fun j v => hostWrite_w2b_of_idle j v hs,
    fun j v => hostWrite_b2w_of_idle j v hs⟩

end Sys2Proof.Proofs
end

section
/-! The decoding of a command word (R56) and of the value of a CMD write (R66). -/

namespace Sys2Proof.Proofs

open Sys2Proof

/-! ### The opcode map -/

/-- The map gives an opcode the command whose word is that opcode (R56). -/
theorem opcode_eq_some_iff {op : BitVec 4} {i : Instr} : opcode op = some i ↔ (encode i).toNat = op.toNat := by
  constructor
  · intro h
    unfold opcode at h
    split at h <;> cases h <;> exact Eq.symm ‹_›
  · intro h
    simp only [opcode, ← h]
    cases i <;> rfl

/-- The opcodes with no command are the reserved ones (R57). -/
theorem opcode_eq_none_iff : ∀ {op : BitVec 4}, opcode op = none ↔ 5 ≤ op.toNat := by decide

theorem exists_opcode_iff {op : BitVec 4} : (∃ i, opcode op = some i) ↔ op.toNat ≤ 4 := by
  rw [← Option.ne_none_iff_exists', Ne, opcode_eq_none_iff]; omega

/-! ### The three outcomes of decoding a word -/

theorem decode_of_rsv_ne {w : BitVec 8} (h : rsvField w ≠ 0#4) : decode w = .error (.reservedBits (rsvField w)) :=
  if_pos h

theorem decode_of_opcode_none {w : BitVec 8} (hr : rsvField w = 0#4) (ho : opcode (opField w) = none) :
    decode w = .error (.reservedOpcode (opField w)) := by
  simp [decode, hr, ho]

theorem decode_of_opcode_some {w : BitVec 8} {i : Instr} (hr : rsvField w = 0#4) (ho : opcode (opField w) = some i) :
    decode w = .ok i := by
  simp [decode, hr, ho]

/-- A word decodes to a command exactly when RSV is 0 and the map gives OP that command. -/
theorem decode_eq_ok_iff {w : BitVec 8} {i : Instr} :
    decode w = .ok i ↔ rsvField w = 0#4 ∧ opcode (opField w) = some i := by
  refine ⟨fun h => ?_, fun ⟨hr, ho⟩ => decode_of_opcode_some hr ho⟩
  by_cases hr : rsvField w = 0#4
  · cases ho : opcode (opField w) with
    | none => rw [decode_of_opcode_none hr ho] at h; cases h
    | some j => rw [decode_of_opcode_some hr ho] at h; cases h; exact ⟨hr, rfl⟩
  · rw [decode_of_rsv_ne hr] at h; cases h

/-- Settles O3: the words are those with RSV 0 whose opcode the map lists, and the five rows are evaluated. -/
theorem opcodeMap : Obligations.OpcodeMap := by
  unfold Obligations.OpcodeMap
  refine ⟨fun w => ?_, rfl, rfl, rfl, rfl, rfl⟩
  simp only [decode_eq_ok_iff, exists_and_left, exists_opcode_iff, rsvField, opField]

/-! ### CMD writes -/

/-- OP of the low byte is v[3:0] of the value written: bits 15:8 play no part (R66). -/
theorem opField_lowByte (v : BitVec 16) : opField (v.extractLsb' 0 8) = v.extractLsb' 0 4 :=
  BitVec.extractLsb'_extractLsb'_of_le (by decide)

/-- RSV of the low byte is v[7:4] of the value written: bits 15:8 play no part (R66). -/
theorem rsvField_lowByte (v : BitVec 16) : rsvField (v.extractLsb' 0 8) = v.extractLsb' 4 4 :=
  BitVec.extractLsb'_extractLsb'_of_le (by decide)

/-- Settles O5: the fields of the low byte are those of the value, and they decide which outcome its decoding has. -/
theorem cmdWriteDecoding : Obligations.CmdWriteDecoding := by
  unfold Obligations.CmdWriteDecoding
  intro v
  simp only [decodeWrite, ← rsvField_lowByte, ← opField_lowByte]
  refine ⟨decode_of_rsv_ne, fun hr ho => decode_of_opcode_none hr (opcode_eq_none_iff.2 ho), fun hr ho => ?_⟩
  obtain ⟨i, hi⟩ := exists_opcode_iff.2 ho
  exact ⟨i, decode_of_opcode_some hr hi, opcode_eq_some_iff.1 hi⟩

end Sys2Proof.Proofs
end

section
/-! PACK (R69): the frame it leaves, and its inverse `unpack` (R67, R70). -/

namespace Sys2Proof.Proofs

open Sys2Proof Sys2Proof.Machine Sys2Proof.Laws

/-! ### Frames and sequences of 8192 bits -/

theorem isFrame_packBits {seq : List Bool} (h : seq.length = Config.npix) : isFrame (packBits seq) := by
  rw [isFrame, length_packBits, h]; decide

theorem unpack_packBits_of_length {seq : List Bool} (h : seq.length = Config.npix) : unpack (packBits seq) = seq :=
  unpack_packBits (by rw [h]; decide)

theorem unpack_injective : Function.Injective unpack := Function.LeftInverse.injective packBits_unpack

theorem length_unpack_of_isFrame {F : List Byte} (hF : isFrame F) : (unpack F).length = Config.npix := by
  rw [length_unpack, hF, eight_mul_nbytes]

/-! ### Samples and pixels -/

/-- The sample 1 is a white pixel and the sample 0 a black one (R68). -/
theorem pix_zeroOne (p : Bool) : pix (if p then 1#8 else 0#8) = p := by cases p <;> rfl

/-- Binarizing a bit sequence loaded as samples 0 and 1 gives the sequence back. -/
theorem map_pix_zeroOne (seq : List Bool) : (seq.map fun p => if p then 1#8 else 0#8).map pix = seq := by
  simp only [List.map_map, Function.comp_def, pix_zeroOne, List.map_id']

/-! ### The PKD that PACK leaves -/

/-- PACK on a fully written SMP leaves the packed pixels of the samples in PKD (R69). -/
theorem exec_pack_holds {s : State} {S : List (BitVec Config.sampleW)} (hl : S.length = Config.npix)
    (h : Memory.holds s.smp S) : ∃ t, exec .pack s = .next t ∧ Memory.holds t.pkd (packBits (S.map pix)) := by
  refine ⟨_, execPack_of_holds hl h, fun i _ => ?_⟩
  rw [complete_pkd, storePacked_pkd, read_ofList]

/-- PACK on an SMP loaded with a bit sequence as samples 0 and 1 leaves the packed sequence in PKD. -/
theorem exec_pack_zeroOne {s : State} {seq : List Bool} (hl : seq.length = Config.npix)
    (h : Memory.holds s.smp (seq.map fun p => if p then 1#8 else 0#8)) :
    ∃ t, exec .pack s = .next t ∧ Memory.holds t.pkd (packBits seq) := by
  have packed := exec_pack_holds (by rw [List.length_map, hl]) h
  rwa [map_pix_zeroOne] at packed

/-- Settles O20: PACK leaves `packBits` of the samples' pixels, and `packBits` and `unpack` are inverse to each other
between the sequences of 8192 bits and the frames. -/
theorem packUnpackRoundTrip : Obligations.PackUnpackRoundTrip := by
  unfold Obligations.PackUnpackRoundTrip
  refine ⟨fun s S hl h => ?_, fun s seq hl h => ?_, fun F G _ _ e => unpack_injective e,
    fun F hF => length_unpack_of_isFrame hF,
    fun seq hl => ⟨packBits seq, isFrame_packBits hl, unpack_packBits_of_length hl⟩, fun s F hF h => ?_⟩
  · obtain ⟨t, run, pkd⟩ := exec_pack_holds hl h
    have hp : (S.map pix).length = Config.npix := by rw [List.length_map, hl]
    have hF := isFrame_packBits hp
    have hu := unpack_packBits_of_length hp
    refine ⟨t, _, run, hF, pkd, hu, fun i hi => ?_⟩
    rw [← List.getElem?_map, ← hu, getElem?_unpack _ (by rwa [hF]), hu]
  · obtain ⟨t, run, pkd⟩ := exec_pack_zeroOne hl h
    exact ⟨t, _, run, isFrame_packBits hl, pkd, unpack_packBits_of_length hl⟩
  · have packed := exec_pack_zeroOne (length_unpack_of_isFrame hF) h
    rwa [packBits_unpack] at packed

end Sys2Proof.Proofs
end


section
/-! DIFF (R73): what its lists hold, as bytes (R72), in order (R74), as sets (R75), counted (R76), and run twice (R77). -/

namespace Sys2Proof.Proofs

open Sys2Proof Sys2Proof.Machine Sys2Proof.Laws

/-! ### A list memory that holds the pixels a predicate picks -/

/-- The list memory with its count is what DIFF writes for the pixels that `f` picks: their coordinate words in raster
order, and how many they are (R73). -/
structure HoldsPixels (m : Memory 16) (count : BitVec 14) (f : Nat → Bool) : Prop where
  memory_eq : m = Memory.ofList ((pixelsWhere Config.npix f).map coordWord)
  count_eq : count = BitVec.ofNat 14 (pixelsWhere Config.npix f).length

namespace HoldsPixels

variable {m : Memory 16} {count : BitVec 14} {f : Nat → Bool}

theorem toNat_count (h : HoldsPixels m count f) : count.toNat = (pixelsWhere Config.npix f).length := by
  rw [h.count_eq, count_toNat (length_pixelsWhere_le _ _)]

theorem read_eq (h : HoldsPixels m count f) (j : Nat) :
    Memory.read m j = ((pixelsWhere Config.npix f)[j]?).map coordWord := by
  rw [h.memory_eq, read_ofList, List.getElem?_map]

/-- Reading out the list below its count gives the picked pixels. -/
theorem listIndices_eq (h : HoldsPixels m count f) : listIndices m count = pixelsWhere Config.npix f := by
  have read_out := listIndices_ofList (fun _ => pixelsWhere_lt) (length_pixelsWhere_le Config.npix f)
  rwa [List.length_map, ← h.memory_eq, ← h.count_eq] at read_out

/-- A pixel's coordinate word is in the list exactly when the pixel is picked. -/
theorem exists_read_iff (h : HoldsPixels m count f) {i : Nat} (hi : i < Config.npix) :
    (∃ j, Memory.read m j = some (coordWord i)) ↔ f i = true := by
  have picked : f i = true ↔ i ∈ pixelsWhere Config.npix f := by rw [mem_pixelsWhere, and_iff_right hi]
  simp only [picked, List.mem_iff_getElem?, h.read_eq, Option.map_eq_some_iff]
  constructor
  · rintro ⟨j, k, hk, e⟩
    have same : k = i := by
      rw [← coordWord_toNat (pixelsWhere_lt (List.mem_of_getElem? hk)), e, coordWord_toNat hi]
    exact ⟨j, same ▸ hk⟩
  · rintro ⟨j, hj⟩
    exact ⟨j, i, hj, rfl⟩

/-- The coordinate words below the count ascend strictly (R74). -/
theorem read_lt_read (h : HoldsPixels m count f) {j k : Nat} (hjk : j < k) (hk : k < count.toNat) :
    ∃ v w, Memory.read m j = some v ∧ Memory.read m k = some w ∧ v.toNat < w.toNat := by
  rw [h.toNat_count] at hk
  have hj := hjk.trans hk
  refine ⟨_, _, by rw [h.read_eq, List.getElem?_eq_getElem hj, Option.map_some],
    by rw [h.read_eq, List.getElem?_eq_getElem hk, Option.map_some], ?_⟩
  rw [coordWord_toNat (pixelsWhere_lt (List.getElem_mem hj)), coordWord_toNat (pixelsWhere_lt (List.getElem_mem hk))]
  exact List.pairwise_iff_getElem.1 (pixelsWhere_ascending _ f) j k hj hk hjk

end HoldsPixels

/-! ### The state DIFF leaves -/

/-- A DIFF that completes found a whole frame in PKD. -/
theorem exists_frame_of_exec_diff {s t : State} (run : exec .diff s = .next t) :
    ∃ Q, isFrame Q ∧ Memory.holds s.pkd Q := by
  obtain ⟨Q, hQ, hpkd, -⟩ := execDiff_next run
  exact ⟨Q, hQ, hpkd⟩

/-- DIFF leaves the white-to-black pixels in W2B and the black-to-white ones in B2W, each with its count (R73). -/
theorem holdsPixels_of_exec_diff {s t : State} {Q : List Byte} (hQ : isFrame Q) (hpkd : Memory.holds s.pkd Q)
    (run : exec .diff s = .next t) :
    HoldsPixels t.w2b t.w2bCnt (fun i => frameBit (prevFrame s.prev) i && !frameBit Q i) ∧
      HoldsPixels t.b2w t.b2wCnt (fun i => !frameBit (prevFrame s.prev) i && frameBit Q i) := by
  obtain rfl := Host.Outcome.next.inj ((execDiff_of_holds hQ hpkd).symm.trans run)
  exact ⟨⟨by simp [whiteToBlack], by simp [whiteToBlack]⟩, ⟨by simp [blackToWhite], by simp [blackToWhite]⟩⟩

/-- After DIFF the frame in PREV is the one in PKD (R73). -/
theorem pkd_holds_prev_of_exec_diff {s t : State} (run : exec .diff s = .next t) :
    Memory.holds t.pkd (prevFrame t.prev) := by
  obtain ⟨Q, hQ, hpkd, rfl⟩ := execDiff_next run
  simpa [prevFrame_prevOfFrame hQ] using hpkd

/-- Settles O26: each list holds the pixels its kind picks from the ascending raster order, and reads out as them. -/
theorem diffListsAscend : Obligations.DiffListsAscend := by
  unfold Obligations.DiffListsAscend
  intro s t run
  obtain ⟨P, hP, hpkd⟩ := exists_frame_of_exec_diff run
  obtain ⟨w2b, b2w⟩ := holdsPixels_of_exec_diff hP hpkd run
  refine ⟨fun j k => w2b.read_lt_read, fun j k => b2w.read_lt_read, fun Q hQ hpkd => ?_⟩
  obtain ⟨w2b, b2w⟩ := holdsPixels_of_exec_diff hQ hpkd run
  exact ⟨w2b.listIndices_eq, b2w.listIndices_eq⟩

/-- Settles O27: a pixel is in W2B when it is 1 in P and 0 in Q and in B2W when it is 0 in P and 1 in Q. -/
theorem diffListsPartitionChangedPixels : Obligations.DiffListsPartitionChangedPixels := by
  unfold Obligations.DiffListsPartitionChangedPixels
  intro s t Q hQ hpkd run
  obtain ⟨w2b, b2w⟩ := holdsPixels_of_exec_diff hQ hpkd run
  simp only [w2b.listIndices_eq, b2w.listIndices_eq, mem_pixelsWhere]
  constructor <;> intro i <;> cases frameBit (prevFrame s.prev) i <;> cases frameBit Q i <;> simp

/-! ### The byte lanes -/

/-- Bit `j` of the lane byte `P & ~Q` (R72). -/
theorem getLsbD_and_not {w : Nat} (p q : BitVec w) {j : Nat} (hj : j < w) :
    (p &&& ~~~q).getLsbD j = (p.getLsbD j && !q.getLsbD j) := by simp [hj]

/-- Bit `j` of the lane byte `~P & Q` (R72). -/
theorem getLsbD_not_and {w : Nat} (p q : BitVec w) {j : Nat} (hj : j < w) :
    (~~~p &&& q).getLsbD j = (!p.getLsbD j && q.getLsbD j) := by simp [hj]

theorem xor_eq_or_lanes {w : Nat} (p q : BitVec w) : p ^^^ q = (p &&& ~~~q) ||| (~~~p &&& q) := by
  ext j hj
  simp only [BitVec.getElem_xor, BitVec.getElem_or, BitVec.getElem_and, BitVec.getElem_not]
  cases p[j] <;> cases q[j] <;> rfl

theorem lanes_disjoint {w : Nat} (p q : BitVec w) : (p &&& ~~~q) &&& (~~~p &&& q) = 0#w := by
  ext j hj
  simp only [BitVec.getElem_and, BitVec.getElem_not, BitVec.getElem_zero]
  cases p[j] <;> cases q[j] <;> rfl

/-- A pixel of the frame in PREV is a bit of the byte PREV reads at its index (R67). -/
theorem frameBit_prevFrame (m : Memory 8) {i : Nat} (hi : i < Config.npix) :
    frameBit (prevFrame m) i = (prevByte m (i / 8)).getLsbD (7 - i % 8) := by
  rw [frameBit, List.getD_eq_getElem?_getD, getElem?_prevFrame m (Nat.div_lt_of_lt_mul (eight_mul_nbytes ▸ hi)),
    Option.getD_some]

/-- Settles O25: the bits of the lane bytes are the predicates that pick the pixels of the two lists. -/
theorem diffComputesByteLanes : Obligations.DiffComputesByteLanes := by
  unfold Obligations.DiffComputesByteLanes
  intro s t Q hQ hpkd run
  obtain ⟨w2b, b2w⟩ := holdsPixels_of_exec_diff hQ hpkd run
  refine ⟨fun i hi => ?_, fun i hi => ?_, fun k _ => ⟨xor_eq_or_lanes _ _, lanes_disjoint _ _⟩⟩
  · rw [getLsbD_and_not _ _ (by omega), ← frameBit_prevFrame s.prev hi]
    exact w2b.exists_read_iff hi
  · rw [getLsbD_not_and _ _ (by omega), ← frameBit_prevFrame s.prev hi]
    exact b2w.exists_read_iff hi

/-! ### The counts -/

/-- The popcount of a frame combined byte by byte is the number of pixels the combination of bits picks. -/
theorem popcount_zipWith {f : Byte → Byte → Byte} {g : Bool → Bool → Bool}
    (bit : ∀ p q : Byte, ∀ j < 8, (f p q).getLsbD j = g (p.getLsbD j) (q.getLsbD j)) {P Q : List Byte}
    (hP : isFrame P) (hQ : isFrame Q) :
    popcount (List.zipWith f P Q) = (pixelsWhere Config.npix fun i => g (frameBit P i) (frameBit Q i)).length := by
  have hF : isFrame (List.zipWith f P Q) := by rw [isFrame, List.length_zipWith, hP, hQ, min_self]
  rw [popcount_eq hF, pixelsWhere, pixelsWhere]
  refine congrArg List.length (List.filter_congr fun i hi => ?_)
  have hi8 : i < 8 * P.length := by rwa [hP, eight_mul_nbytes, ← List.mem_range]
  rw [frameBit_zipWith f (hP.trans hQ.symm) hi8, bit _ _ _ (by omega), frameBit, frameBit]

/-- The pixels in which two predicates differ are those only the first picks and those only the second picks. -/
theorem length_pixelsWhere_xor (n : Nat) (f g : Nat → Bool) :
    (pixelsWhere n fun i => f i ^^ g i).length =
      (pixelsWhere n fun i => f i && !g i).length + (pixelsWhere n fun i => !f i && g i).length := by
  simp only [pixelsWhere]
  rw [List.length_eq_length_filter_add f, List.filter_filter, List.filter_filter]
  congr 3 <;> funext i <;> cases f i <;> cases g i <;> rfl

/-- Settles O28: the popcount of each lane is the length of its list, and the changed pixels are those of both lists. -/
theorem diffCountsArePopcounts : Obligations.DiffCountsArePopcounts := by
  unfold Obligations.DiffCountsArePopcounts
  intro s t Q hQ hpkd run
  have hP : isFrame (prevFrame s.prev) := length_prevFrame s.prev
  obtain ⟨w2b, b2w⟩ := holdsPixels_of_exec_diff hQ hpkd run
  rw [w2b.toNat_count, b2w.toNat_count]
  refine ⟨?_, ?_, ?_⟩
  · rw [popcount_zipWith (g := fun a b => a && !b) (fun p q j => getLsbD_and_not p q) hP hQ]
  · rw [popcount_zipWith (g := fun a b => !a && b) (fun p q j => getLsbD_not_and p q) hP hQ]
  · rw [popcount_zipWith (g := xor) (fun p q j _ => BitVec.getLsbD_xor) hP hQ, length_pixelsWhere_xor]

/-! ### DIFF of a frame against itself -/

/-- With PREV and PKD holding one frame, DIFF finds no changed pixel (R77). -/
theorem counts_zero_of_pkd_holds_prev {s t : State} (hpkd : Memory.holds s.pkd (prevFrame s.prev))
    (run : exec .diff s = .next t) : t.w2bCnt = 0#14 ∧ t.b2wCnt = 0#14 := by
  obtain ⟨w2b, b2w⟩ := holdsPixels_of_exec_diff (length_prevFrame s.prev) hpkd run
  simp [w2b.count_eq, b2w.count_eq, pixelsWhere]

/-- Settles O29: a DIFF leaves PREV and PKD holding one frame, so the next finds no changed pixel. -/
theorem diffIdempotent : Obligations.DiffIdempotent := by
  unfold Obligations.DiffIdempotent
  exact ⟨fun s t => counts_zero_of_pkd_holds_prev,
    fun s t u first => counts_zero_of_pkd_holds_prev (pkd_holds_prev_of_exec_diff first)⟩

end Sys2Proof.Proofs
end

section
/-! LOOKUP (R83): the pixel its results name (R85), in a frame (R86) and from a coordinate word (R87). -/

namespace Sys2Proof.Proofs

open Sys2Proof Sys2Proof.Machine Sys2Proof.Laws

/-! ### The results of LOOKUP -/

/-- LK_RES and LK_MASK name the pixel at raster index `i`: VALID, two zero bits, BYTE, BIT and the mask (R24, R83). -/
structure NamesPixel (t : State) (i : Nat) : Prop where
  valid : lkValid t.lkRes = true
  reserved : t.lkRes.extractLsb' 13 2 = 0#2
  byte_eq : lkByte t.lkRes = i / 8
  bit_eq : lkBit t.lkRes = 7 - i % 8
  mask_eq : t.lkMask = pixelMask i

/-- LOOKUP always completes, and writes its results alone (R83). -/
theorem exec_lookup (s : State) :
    exec .lookup s = .next (complete (storeLookup (lookupResult s.lkX s.lkY) s)) := rfl

theorem eq_of_exec_lookup {s t : State} (run : exec .lookup s = .next t) :
    t = complete (storeLookup (lookupResult s.lkX s.lkY) s) := (Host.Outcome.next.inj run).symm

/-- LOOKUP of an in-bounds coordinate names its pixel (R83). -/
theorem namesPixel_of_exec_lookup {s t : State} {x y : Nat} (hx : x < 128) (hy : y < 64) (hX : sint s.lkX = x)
    (hY : sint s.lkY = y) (run : exec .lookup s = .next t) : NamesPixel t (128 * y + x) := by
  obtain rfl := eq_of_exec_lookup run
  have hbit : 7 - x % 8 = 7 - (128 * y + x) % 8 := by omega
  have hbyte : 16 * y + x / 8 = (128 * y + x) / 8 := by omega
  rw [lookupResult_inBounds hX hY hx hy, hbit, hbyte]
  obtain ⟨valid, reserved, bit, byte⟩ := lookupWord_fields (bitn := 7 - (128 * y + x) % 8)
    (byte := (128 * y + x) / 8) (by omega) (by omega)
  exact ⟨valid, reserved, byte, bit, rfl⟩

/-- The mask of a pixel is 0x80 moved right by the pixel's place in its byte. -/
theorem pixelMask_eq_shiftRight (i : Nat) : pixelMask i = 0x80#8 >>> (i % 8) := by
  have shift : ∀ m < 8, BitVec.ofNat 8 (2 ^ (7 - m)) = 0x80#8 >>> m := by decide
  exact shift _ (Nat.mod_lt _ (by decide))

/-- Settles O37: LOOKUP names the pixel at index 128y + x, whose byte is 16y + x div 8 and whose place in it is x mod 8. -/
theorem lookupInBounds : Obligations.LookupInBounds := by
  unfold Obligations.LookupInBounds
  intro s x y hx hy hX hY
  have named := namesPixel_of_exec_lookup hx hy hX hY (exec_lookup s)
  have hmod : (128 * y + x) % 8 = x % 8 := by omega
  refine ⟨_, exec_lookup s, rfl, named.valid, named.reserved, named.byte_eq.trans (by omega), ?_, ?_⟩
  · rw [← hmod]; exact named.bit_eq
  · rw [← hmod, ← pixelMask_eq_shiftRight]; exact named.mask_eq

/-- Settles O38: outside the bounds both results are 0, and LOOKUP still completes. -/
theorem lookupOutOfBounds : Obligations.LookupOutOfBounds := by
  unfold Obligations.LookupOutOfBounds
  intro s h
  rw [exec_lookup, lookupResult_outOfBounds h]
  rfl

/-! ### The named pixel in a frame -/

/-- A byte's bit is set exactly when the byte has a bit in common with the mask of the bit's pixel. -/
theorem and_pixelMask_ne_zero_iff (b : Byte) (i : Nat) : b &&& pixelMask i ≠ 0#8 ↔ b.getLsbD (7 - i % 8) = true := by
  have hlt : 7 - i % 8 < 8 := by omega
  have hmask : pixelMask i = BitVec.twoPow 8 (7 - i % 8) := by
    apply BitVec.eq_of_toNat_eq
    rw [pixelMask, BitVec.toNat_ofNat, BitVec.toNat_twoPow]
  have hne : BitVec.twoPow 8 (7 - i % 8) ≠ 0#8 := fun h =>
    (Nat.two_pow_pos _).ne' ((BitVec.toNat_twoPow_of_lt hlt).symm.trans (congrArg BitVec.toNat h))
  rw [hmask, BitVec.and_twoPow]
  by_cases hb : b.getLsbD (7 - i % 8) = true
  · rw [if_pos hb]; exact iff_of_true hne hb
  · rw [if_neg hb]; exact iff_of_false (not_not_intro rfl) hb

/-- The pixel that LOOKUP names in a frame is bit BIT of byte BYTE (R67, R86). -/
theorem NamesPixel.frameBit_eq {t : State} {i : Nat} (h : NamesPixel t i) (F : List Byte) :
    frameBit F i = (F.getD (lkByte t.lkRes) 0#8).getLsbD (lkBit t.lkRes) := by
  rw [h.byte_eq, h.bit_eq, frameBit]

/-- LK_MASK picks the pixel that LOOKUP names out of its byte (R86). -/
theorem NamesPixel.and_mask_ne_zero_iff {t : State} {i : Nat} (h : NamesPixel t i) (F : List Byte) :
    F.getD (lkByte t.lkRes) 0#8 &&& t.lkMask ≠ 0#8 ↔ frameBit F i = true := by
  rw [h.byte_eq, h.mask_eq, and_pixelMask_ne_zero_iff, frameBit]

/-- After PACK every pixel of the frame in PKD is that of its sample (R69). -/
theorem exists_packed_of_exec_pack {s t : State} (run : exec .pack s = .next t) :
    ∃ F, isFrame F ∧ Memory.holds t.pkd F ∧
      ∀ i < Config.npix, ∃ v, Memory.read t.smp i = some v ∧ frameBit F i = pix v := by
  obtain ⟨S, hl, hsmp, rfl⟩ := execPack_next run
  have hp : (S.map pix).length = Config.npix := by rw [List.length_map, hl]
  refine ⟨packBits (S.map pix), isFrame_packBits hp, fun k _ => by simp [read_ofList], fun i hi => ?_⟩
  have hiS : i < S.length := hl ▸ hi
  refine ⟨S[i], ?_, ?_⟩
  · rw [complete_smp, storePacked_smp, hsmp i hiS, List.getElem?_eq_getElem hiS]
  · rw [frameBit_packBits (by rw [hp]; decide) (hp ▸ hi), List.getElem_map]

/-- PACK keeps the operands of LOOKUP. -/
theorem lookup_operands_of_exec_pack {s t : State} (run : exec .pack s = .next t) :
    t.lkX = s.lkX ∧ t.lkY = s.lkY := by
  obtain ⟨S, -, -, rfl⟩ := execPack_next run
  exact ⟨rfl, rfl⟩

/-- Settles O39: BYTE and BIT are the byte and the bit of the pixel's index, and PACK's frame has there the pixel of the
sample. -/
theorem lookupAgreesWithPacking : Obligations.LookupAgreesWithPacking := by
  unfold Obligations.LookupAgreesWithPacking
  constructor
  · intro s t F x y hx hy hX hY _ run
    have named := namesPixel_of_exec_lookup hx hy hX hY run
    exact ⟨named.frameBit_eq F, named.and_mask_ne_zero_iff F⟩
  · intro s t u x y hx hy hX hY packed run
    obtain ⟨F, hF, hpkd, hpix⟩ := exists_packed_of_exec_pack packed
    obtain ⟨keepsX, keepsY⟩ := lookup_operands_of_exec_pack packed
    have named := namesPixel_of_exec_lookup hx hy (keepsX ▸ hX) (keepsY ▸ hY) run
    obtain ⟨v, hv, hbit⟩ := hpix (128 * y + x) (by simp only [Config.npix]; omega)
    have hbyte : lkByte u.lkRes < F.length := by rw [named.byte_eq, hF]; simp only [Config.nbytes]; omega
    obtain rfl := eq_of_exec_lookup run
    refine ⟨F[_]'hbyte, v, (hpkd _ hbyte).trans (List.getElem?_eq_getElem hbyte), hv, ?_⟩
    rw [← hbit, named.frameBit_eq F, List.getD_eq_getElem _ _ hbyte]

/-! ### The coordinates of a coordinate word -/

/-- A coordinate word is a raster index below 8192 (R61). -/
theorem toNat_lt_of_coordWordWellFormed {w : Half} (h : coordWordWellFormed w = true) : w.toNat < 8192 := by
  have top := congrArg BitVec.toNat (beq_iff_eq.1 h)
  rw [BitVec.extractLsb'_toNat, Nat.shiftRight_eq_div_pow, BitVec.toNat_ofNat] at top
  omega

/-- The coordinates of a coordinate word have the word as their raster index (R10, R61). -/
theorem coordY_coordX_rasterIndex {w : Half} (h : coordWordWellFormed w = true) :
    128 * coordY w + coordX w = w.toNat := by
  have := toNat_lt_of_coordWordWellFormed h
  simp only [coordY, coordX, uint, BitVec.extractLsb'_toNat, Nat.shiftRight_eq_div_pow]
  omega

/-- A field narrower than 16 bits, zero-extended, is its unsigned value as a signed integer. -/
theorem sint_zeroExtend_of_lt {n : Nat} (v : BitVec n) (h : n < 16) : sint (v.zeroExtend 16) = uint v := by
  rw [sint, BitVec.zeroExtend_eq_setWidth, ← BitVec.setWidth'_eq h.le, BitVec.toInt_setWidth'_of_lt h]

/-- Settles O40: LOOKUP of the word's coordinates names the pixel whose raster index is the word. -/
theorem lookupAgreesWithCoordinateWords : Obligations.LookupAgreesWithCoordinateWords := by
  unfold Obligations.LookupAgreesWithCoordinateWords
  intro s w hw hX hY
  have named := namesPixel_of_exec_lookup (x := coordX w) (y := coordY w) (BitVec.isLt _) (BitVec.isLt _)
    (by rw [hX]; exact sint_zeroExtend_of_lt _ (by decide)) (by rw [hY]; exact sint_zeroExtend_of_lt _ (by decide))
    (exec_lookup s)
  rw [coordY_coordX_rasterIndex hw] at named
  have := toNat_lt_of_coordWordWellFormed hw
  refine ⟨_, exec_lookup s, named.valid, named.byte_eq.trans ?_, named.bit_eq.trans ?_⟩
  · rw [BitVec.extractLsb'_toNat, Nat.shiftRight_eq_div_pow]; omega
  · rw [BitVec.extractLsb'_toNat, Nat.shiftRight_zero]

end Sys2Proof.Proofs
end

section
/-! Host writes of the control registers: CMD (R89 to R91), STATUS (R95), CTRL (R96), LK_X and LK_Y (R97). -/

namespace Sys2Proof.Proofs

open Sys2Proof Sys2Proof.Machine

/-! ### The three outcomes of a CMD write -/

theorem writeCmd_of_busy {s : State} (v : BitVec 16) (hp : s.phase = .busy) : writeCmd v s = rejectBusy s := by
  simp only [writeCmd, hp]

theorem writeCmd_of_illegal {s : State} {v : BitVec 16} (hp : s.phase = .idle)
    (h : ∀ i, decode (v.extractLsb' 0 8) ≠ .ok i) : writeCmd v s = rejectIllegal s := by
  simp only [writeCmd, hp, decodeWrite]
  cases hd : decode (v.extractLsb' 0 8) with
  | error _ => rfl
  | ok i => exact absurd hd (h i)

theorem writeCmd_of_legal {s : State} {v : BitVec 16} (hp : s.phase = .idle)
    (h : ∃ i, decode (v.extractLsb' 0 8) = .ok i) : writeCmd v s = accept (v.extractLsb' 0 8) s := by
  obtain ⟨i, hi⟩ := h
  simp only [writeCmd, hp, decodeWrite, hi]

/-! ### Writes of the control registers -/

/-- CMD, STATUS and CTRL are outside the blocked set, so no access to them is a hazard (R40, R43). -/
theorem not_hazard_of_control (s : State) {i : BitVec 4} (h : i.toNat < 3) :
    ¬(s.phase = .busy ∧ (Loc.reg i).blocked = true) := by
  rw [blocked_reg]; omega

theorem hostWrite_cmd (s : State) (v : BitVec 16) : hostWrite s (.reg 0#4) v = .ok (writeCmd v s) :=
  hostWrite_reg_of_not_hazard v (not_hazard_of_control s (by decide))

theorem hostWrite_status (s : State) (v : BitVec 16) : hostWrite s (.reg 1#4) v = .ok (writeStatus v s) :=
  hostWrite_reg_of_not_hazard v (not_hazard_of_control s (by decide))

theorem hostWrite_ctrl (s : State) (v : BitVec 16) : hostWrite s (.reg 2#4) v = .ok (writeCtrl v s) :=
  hostWrite_reg_of_not_hazard v (not_hazard_of_control s (by decide))

/-- Settles O6: a CMD write is no hazard, and PHASE and the decoding of its low byte decide which outcome it has. -/
theorem cmdWriteClassified : Obligations.CmdWriteClassified := by
  unfold Obligations.CmdWriteClassified
  intro s v
  rw [hostWrite_cmd]
  exact ⟨fun hp => congrArg Except.ok (writeCmd_of_busy v hp),
    fun hp h => congrArg Except.ok (writeCmd_of_illegal hp h),
    fun hp h => congrArg Except.ok (writeCmd_of_legal hp h)⟩

/-! ### The bits of STATUS and CTRL -/

/-- The flag at each bit of STATUS: bits 7:4 are 0, and there is no bit above (R20). -/
def statusBit (s : State) : Nat → Bool
  | 0 => s.busy
  | 1 => s.done
  | 2 => s.errIllegal
  | 3 => s.errBusy
  | _ => false

theorem getLsbD_statusWord (s : State) (b : Nat) : (statusWord s).getLsbD b = statusBit s b := by
  simp only [statusWord, BitVec.append_ofBool]
  match b with
  | 0 | 1 | 2 | 3 | n + 4 =>
    simp only [BitVec.getLsbD_concat_zero, BitVec.getLsbD_concat_succ, BitVec.getLsbD_zero, statusBit]

/-- The enable at each bit of CTRL: bits 7:2 are 0, and there is no bit above (R21). -/
def ctrlBit (s : State) : Nat → Bool
  | 0 => s.ieDone
  | 1 => s.ieErr
  | _ => false

theorem getLsbD_ctrlWord (s : State) (b : Nat) : (ctrlWord s).getLsbD b = ctrlBit s b := by
  simp only [ctrlWord, BitVec.append_ofBool]
  match b with
  | 0 | 1 | n + 2 =>
    simp only [BitVec.getLsbD_concat_zero, BitVec.getLsbD_concat_succ, BitVec.getLsbD_zero, ctrlBit]

/-- Bits 7:2 of CTRL are 0 (R21). -/
theorem extractLsb'_two_six_ctrlWord (s : State) : (ctrlWord s).extractLsb' 2 6 = 0#6 := by
  apply BitVec.eq_of_getLsbD_eq
  intro b _
  rw [BitVec.getLsbD_extractLsb', getLsbD_ctrlWord, BitVec.getLsbD_zero, Nat.add_comm]
  exact Bool.and_false _

/-- A CTRL write stores bits 1:0 of its value (R96). -/
theorem extractLsb'_zero_two_ctrlWord_writeCtrl (v : BitVec 16) (s : State) :
    (ctrlWord (writeCtrl v s)).extractLsb' 0 2 = v.extractLsb' 0 2 := by
  apply BitVec.eq_of_getLsbD_eq
  intro b hb
  rw [BitVec.getLsbD_extractLsb', BitVec.getLsbD_extractLsb', getLsbD_ctrlWord]
  match b with
  | 0 | 1 => rfl

/-- Settles O7: of the bits of STATUS the write changes the flags, which are the bits 1, 2 and 3. -/
theorem statusWriteOneToClear : Obligations.StatusWriteOneToClear := by
  unfold Obligations.StatusWriteOneToClear
  intro s v
  refine ⟨_, hostWrite_status s v, rfl, fun b => ?_⟩
  rw [getLsbD_statusWord, getLsbD_statusWord]
  match b with
  | 0 => exact (Bool.and_true _).symm
  | 1 | 2 | 3 | n + 4 => rfl

/-- Settles O8: the two enables are bits 1:0 of the value, and CTRL as a word and the interrupt line are computed from
them. -/
theorem ctrlWriteStoresEnables : Obligations.CtrlWriteStoresEnables := by
  unfold Obligations.CtrlWriteStoresEnables
  intro s v
  exact ⟨_, hostWrite_ctrl s v, rfl, extractLsb'_zero_two_ctrlWord_writeCtrl v s,
    extractLsb'_two_six_ctrlWord _, rfl⟩

/-! ### Writes of the operands of LOOKUP -/

theorem hostWrite_lkX_of_idle {s : State} (v : BitVec 16) (hs : s.phase = .idle) :
    hostWrite s (.reg 5#4) v = .ok (writeLkX v s) := hostWrite_reg_of_not_hazard v (not_hazard_of_idle hs _)

theorem hostWrite_lkY_of_idle {s : State} (v : BitVec 16) (hs : s.phase = .idle) :
    hostWrite s (.reg 6#4) v = .ok (writeLkY v s) := hostWrite_reg_of_not_hazard v (not_hazard_of_idle hs _)

/-- Settles O9: while IDLE the write is no hazard and stores its value, and both registers are in the blocked set. -/
theorem lookupOperandWrite : Obligations.LookupOperandWrite := by
  unfold Obligations.LookupOperandWrite
  intro s v
  exact ⟨fun hs => ⟨hostWrite_lkX_of_idle v hs, hostWrite_lkY_of_idle v hs⟩,
    fun hp => ⟨hostWrite_of_hazard v hp (blocked_reg.2 (by decide)),
      hostWrite_of_hazard v hp (blocked_reg.2 (by decide))⟩⟩

end Sys2Proof.Proofs
end

section
/-! STATUS, CTRL and the interrupt line as a function of the two registers (R20, R21, R102). -/

namespace Sys2Proof.Proofs

open Sys2Proof Sys2Proof.Machine

/-- Bits 7:4 of STATUS are 0 (R20). -/
theorem extractLsb'_four_four_statusWord (s : State) : (statusWord s).extractLsb' 4 4 = 0#4 := by
  apply BitVec.eq_of_getLsbD_eq
  intro b _
  rw [BitVec.getLsbD_extractLsb', getLsbD_statusWord, BitVec.getLsbD_zero, Nat.add_comm]
  exact Bool.and_false _

/-- The interrupt line in the bits of the two register words (R102). -/
theorem irq_eq_getLsbD_statusWord_ctrlWord (s : State) :
    irq s = (((statusWord s).getLsbD 1 && (ctrlWord s).getLsbD 0) ||
      (((statusWord s).getLsbD 2 || (statusWord s).getLsbD 3) && (ctrlWord s).getLsbD 1)) := by
  simp only [getLsbD_statusWord, getLsbD_ctrlWord]
  rfl

/-- Settles O16: `statusBit` and `ctrlBit` give the fields by bit number, and the interrupt line is computed from the
flags and enables that stand at those bits. -/
theorem statusFieldsAndInterrupt : Obligations.StatusFieldsAndInterrupt := by
  unfold Obligations.StatusFieldsAndInterrupt
  intro s
  exact ⟨getLsbD_statusWord s 0, getLsbD_statusWord s 1, getLsbD_statusWord s 2, getLsbD_statusWord s 3,
    extractLsb'_four_four_statusWord s, getLsbD_ctrlWord s 0, getLsbD_ctrlWord s 1,
    extractLsb'_two_six_ctrlWord s, irq_eq_getLsbD_statusWord_ctrlWord s⟩

end Sys2Proof.Proofs
end

section
/-! The invariant `State.Inv`: reset meets it, and every write, command and turn keeps it. -/

namespace Sys2Proof.Proofs

open Sys2Proof Sys2Proof.Machine Sys2Proof.Laws

/-! ### The lists of a DIFF -/

/-- The coordinate word of a raster index has its top three bits 0 (R61). -/
theorem coordWordWellFormed_coordWord {i : Nat} (hi : i < Config.npix) : coordWordWellFormed (coordWord i) = true := by
  rw [coordWordWellFormed, beq_iff_eq]
  apply BitVec.eq_of_toNat_eq
  rw [BitVec.extractLsb'_toNat, coordWord_toNat hi, Nat.shiftRight_eq_div_pow, Nat.div_eq_of_lt hi]
  rfl

namespace HoldsPixels

variable {m : Memory 16} {count : BitVec 14} {f : Nat → Bool}

theorem wf (h : HoldsPixels m count f) : Memory.wf Config.npix none m := by
  rw [h.memory_eq]
  exact ofList_wf (by rw [List.length_map]; exact length_pixelsWhere_le _ _)

/-- Every entry is the coordinate word of a picked pixel. -/
theorem exists_pixel_of_mem (h : HoldsPixels m count f) {e : Nat × BitVec 16} (he : e ∈ m) :
    ∃ i ∈ pixelsWhere Config.npix f, e.2 = coordWord i := by
  have value : e.2 ∈ m.map Prod.snd := List.mem_map_of_mem he
  rw [h.memory_eq, map_snd_ofList] at value
  obtain ⟨i, hi, e⟩ := List.mem_map.1 value
  exact ⟨i, hi, e.symm⟩

/-- The values of the entries are the picked pixels' raster indices. -/
theorem map_toNat_eq (h : HoldsPixels m count f) : m.map (fun e => e.2.toNat) = pixelsWhere Config.npix f := by
  have values : m.map (fun e => e.2.toNat) = (m.map Prod.snd).map BitVec.toNat := by
    rw [List.map_map, Function.comp_def]
  rw [values, h.memory_eq, map_snd_ofList, List.map_map]
  exact (List.map_congr_left fun i hi => coordWord_toNat (pixelsWhere_lt hi)).trans (List.map_id _)

/-- A list memory that DIFF writes is consistent with its count (R30, R61, R74). -/
theorem consistent (h : HoldsPixels m count f) : listConsistent m count := by
  refine ⟨?_, fun e he => ?_, ?_⟩
  · rw [h.toNat_count, h.memory_eq, map_fst_ofList, List.length_map]
  · obtain ⟨i, hi, value⟩ := h.exists_pixel_of_mem he
    rw [value]
    exact coordWordWellFormed_coordWord (pixelsWhere_lt hi)
  · rw [h.map_toNat_eq]
    exact pixelsWhere_ascending _ _

end HoldsPixels

/-- The coordinate words of the pixels that a predicate picks, written from element 0 on with their number as count. -/
theorem holdsPixels_ofList (f : Nat → Bool) :
    HoldsPixels (Memory.ofList ((pixelsWhere Config.npix f).map coordWord))
      (BitVec.ofNat 14 ((pixelsWhere Config.npix f).map coordWord).length) f :=
  ⟨rfl, by rw [List.length_map]⟩

/-- Lists of pixels that no two predicates pick together share no coordinate word (R75). -/
theorem ne_of_mem_of_disjoint {m n : Memory 16} {c d : BitVec 14} {f g : Nat → Bool} (hm : HoldsPixels m c f)
    (hn : HoldsPixels n d g) (disjoint : ∀ i, ¬(f i = true ∧ g i = true)) : ∀ e ∈ m, ∀ e' ∈ n, e.2 ≠ e'.2 := by
  intro e he e' he' same
  obtain ⟨i, hi, value⟩ := hm.exists_pixel_of_mem he
  obtain ⟨j, hj, value'⟩ := hn.exists_pixel_of_mem he'
  have index : i = j := by
    rw [← coordWord_toNat (pixelsWhere_lt hi), ← value, same, value', coordWord_toNat (pixelsWhere_lt hj)]
  exact disjoint i ⟨(mem_pixelsWhere.1 hi).2, (mem_pixelsWhere.1 (index ▸ hj)).2⟩

/-! ### The results of LOOKUP -/

theorem NamesPixel.consistent {t : State} {i : Nat} (h : NamesPixel t i) : lookupConsistent t.lkRes t.lkMask := by
  rw [lookupConsistent, if_pos h.valid]
  exact ⟨h.reserved, by rw [h.mask_eq, h.bit_eq, pixelMask]⟩

/-- LOOKUP leaves LK_RES and LK_MASK that belong together, in bounds and out of bounds (R24, R25). -/
theorem lookupConsistent_of_exec_lookup {s t : State} (run : exec .lookup s = .next t) :
    lookupConsistent t.lkRes t.lkMask := by
  by_cases h : 0 ≤ sint s.lkX ∧ sint s.lkX < 128 ∧ 0 ≤ sint s.lkY ∧ sint s.lkY < 64
  · obtain ⟨hX, hx, hY, hy⟩ := h
    exact (namesPixel_of_exec_lookup (x := (sint s.lkX).toNat) (y := (sint s.lkY).toNat) (by omega) (by omega)
      (Int.toNat_of_nonneg hX).symm (Int.toNat_of_nonneg hY).symm run).consistent
  · obtain rfl := eq_of_exec_lookup run
    rw [complete_lkRes, complete_lkMask, storeLookup_lkRes, storeLookup_lkMask, lookupResult_outOfBounds h]
    decide

/-! ### Reset and the Host keep the invariant -/

/-- The block right after reset, with any Host, schedule and record of model faults, meets the invariant. -/
theorem inv_resetBlock {s : State} (record : s.faultRecord.Nodup ∧ ∀ r ∈ s.faultRecord, r.isModelFault = true) :
    (resetBlock s).Inv where
  cmd := ⟨.nop, (rfl : decode 0x00#8 = .ok .nop)⟩
  counts := Nat.zero_le _
  lookup := (by decide : lookupConsistent 0x0000#16 0x00#8)
  smp := ⟨List.Pairwise.nil, List.forall_mem_nil _⟩
  pkd := ⟨List.Pairwise.nil, List.forall_mem_nil _⟩
  prev := ⟨List.Pairwise.nil, List.forall_mem_nil _⟩
  w2b := ⟨List.Pairwise.nil, List.forall_mem_nil _⟩
  b2w := ⟨List.Pairwise.nil, List.forall_mem_nil _⟩
  w2bList := ⟨rfl, List.forall_mem_nil _, List.Pairwise.nil⟩
  b2wList := ⟨rfl, List.forall_mem_nil _, List.Pairwise.nil⟩
  disjoint := List.forall_mem_nil _
  record := record

/-- Settles O48: the reset state is its own reset block, and its fault record is empty. -/
theorem invariantAtReset : Obligations.InvariantAtReset := by
  unfold Obligations.InvariantAtReset
  rw [← resetBlock_reset]
  exact inv_resetBlock ⟨List.nodup_nil, List.forall_mem_nil _⟩

theorem inv_withHost {s : State} (inv : s.Inv) (g : HostAgent) : (withHost g s).Inv := { inv with }

theorem inv_withSchedule {s : State} (inv : s.Inv) (ts : List Turn) : (withSchedule ts s).Inv := { inv with }

theorem inv_complete {s : State} (inv : s.Inv) : (complete s).Inv := { inv with }

theorem inv_storePrev {s : State} (inv : s.Inv) {F : List Byte} (hF : isFrame F) : (storePrev F s).Inv :=
  { inv with prev := prevOfFrame_wf hF.le }

/-- A Host write keeps the invariant: one that is accepted as a command has a command word, and an element written to
SMP or PKD lies inside the memory. -/
theorem inv_hostWrite {s t : State} {l : Loc} {v : BitVec l.width} (inv : s.Inv) (h : hostWrite s l v = .ok t) :
    t.Inv := by
  obtain ⟨-, rfl | ⟨rfl, -⟩ | ⟨rfl, -⟩ | ⟨w, i, hw, -, rfl⟩ | ⟨x, rfl⟩ | ⟨x, rfl⟩ | ⟨-, lookupOrMemory⟩⟩ :=
    hostWrite_ok h
  · exact inv
  · exact { inv with }
  · exact { inv with }
  · exact { inv with cmd := ⟨i, hw⟩ }
  · exact { inv with }
  · exact { inv with }
  · obtain ⟨x, rfl⟩ | ⟨x, rfl⟩ | ⟨i, x, hi, rfl⟩ | ⟨i, x, hi, rfl⟩ := lookupOrMemory
    · exact { inv with }
    · exact { inv with }
    · exact { inv with smp := write_wf inv.smp hi (Option.some_ne_none x) }
    · exact { inv with pkd := write_wf inv.pkd hi (Option.some_ne_none x) }

/-- What a Host step that answers a next state leaves: the state of at most one Host write, with another Host agent. -/
theorem hostStep_eq_withHost {s t : State} (h : hostStep s = .next t) :
    ∃ g r, t = withHost g r ∧ (r = s ∨ ∃ l v, hostWrite s l v = .ok r) := by
  obtain ⟨st, -, run⟩ := hostStep_next h
  obtain ⟨g, rfl⟩ | ⟨sp, index, value, r, -, write, rfl⟩ := runStmt_ok run
  · exact ⟨g, s, rfl, .inl rfl⟩
  · exact ⟨_, r, rfl, .inr ⟨_, _, write⟩⟩

theorem inv_hostStep {s t : State} (inv : s.Inv) (h : hostStep s = .next t) : t.Inv := by
  obtain ⟨g, r, rfl, rfl | ⟨l, v, write⟩⟩ := hostStep_eq_withHost h
  · exact inv_withHost inv g
  · exact inv_withHost (inv_hostWrite inv write) g

/-! ### The commands keep the invariant -/

theorem inv_exec_pack {s t : State} (inv : s.Inv) (run : exec .pack s = .next t) : t.Inv := by
  obtain ⟨S, hl, -, rfl⟩ := execPack_next run
  have packed : isFrame (packBits (S.map pix)) := isFrame_packBits (by rw [List.length_map, hl])
  exact inv_complete { inv with pkd := ofList_wf packed.le }

/-- The two lists DIFF writes, of pixels that no two predicates pick together, keep the invariant. -/
theorem inv_storeLists {s : State} {ws bs : List (BitVec 16)} {f g : Nat → Bool} (inv : s.Inv)
    (w2b : HoldsPixels (Memory.ofList ws) (BitVec.ofNat 14 ws.length) f)
    (b2w : HoldsPixels (Memory.ofList bs) (BitVec.ofNat 14 bs.length) g)
    (disjoint : ∀ i, ¬(f i = true ∧ g i = true)) : (storeLists ws bs s).Inv :=
  { inv with
    counts := by
      rw [storeLists_w2bCnt, storeLists_b2wCnt, w2b.toNat_count, b2w.toNat_count]
      exact length_pixelsWhere_add_le disjoint
    w2b := w2b.wf
    b2w := b2w.wf
    w2bList := w2b.consistent
    b2wList := b2w.consistent
    disjoint := ne_of_mem_of_disjoint w2b b2w disjoint }

theorem inv_exec_diff {s t : State} (inv : s.Inv) (run : exec .diff s = .next t) : t.Inv := by
  obtain ⟨Q, hQ, -, rfl⟩ := execDiff_next run
  have lists := inv_storeLists inv (holdsPixels_ofList fun i => frameBit (prevFrame s.prev) i && !frameBit Q i)
    (holdsPixels_ofList fun i => !frameBit (prevFrame s.prev) i && frameBit Q i)
    (fun i => by cases frameBit (prevFrame s.prev) i <;> simp)
  exact inv_complete (inv_storePrev lists hQ)

theorem inv_exec_lookup {s t : State} (inv : s.Inv) (run : exec .lookup s = .next t) : t.Inv := by
  have results := lookupConsistent_of_exec_lookup run
  obtain rfl := eq_of_exec_lookup run
  exact inv_complete { inv with lookup := results }

theorem isFrame_zeroFrame : isFrame zeroFrame := List.length_replicate

theorem exec_clrprev (s : State) : exec .clrprev s = .next (complete (storePrev zeroFrame s)) := rfl

theorem inv_exec {s t : State} {i : Instr} (inv : s.Inv) (run : exec i s = .next t) : t.Inv := by
  cases i with
  | nop => exact Host.Outcome.next.inj run ▸ inv_complete inv
  | pack => exact inv_exec_pack inv run
  | diff => exact inv_exec_diff inv run
  | lookup => exact inv_exec_lookup inv run
  | clrprev => exact Host.Outcome.next.inj run ▸ inv_complete (inv_storePrev inv isFrame_zeroFrame)

/-- Settles O49: a turn is a Host step, the pending command or a reset, and each keeps the invariant. -/
theorem stepKeepsInvariant : Obligations.StepKeepsInvariant := by
  unfold Obligations.StepKeepsInvariant
  intro s t inv h
  obtain ⟨u, ts, -, ⟨-, host⟩ | ⟨-, i, -, run⟩ | ⟨-, rfl⟩⟩ := step_next h
  · exact inv_hostStep (inv_withSchedule inv ts) host
  · exact inv_exec (inv_withSchedule inv ts) run
  · exact inv_resetBlock inv.record

end Sys2Proof.Proofs
end

section
/-! The commands: what each writes and keeps (R59, R92), NOP (R94), CLRPREV (R80), and the frame PACK leaves (R69,
R71). -/

namespace Sys2Proof.Proofs

open Sys2Proof Sys2Proof.Machine Sys2Proof.Laws

/-! ### NOP and CLRPREV -/

/-- Settles O17: NOP is the completion alone. -/
theorem nopCompletes : Obligations.NopCompletes := by
  unfold Obligations.NopCompletes
  exact fun _ => rfl

/-- PREV holding the all-zero frame reads 0x00 everywhere (R80). -/
theorem prevByte_prevOfFrame_zeroFrame (k : Nat) : prevByte (prevOfFrame zeroFrame) k = 0x00#8 := by
  rw [prevByte_prevOfFrame, zeroFrame, List.getD_eq_getElem?_getD, List.getElem?_replicate]
  split <;> rfl

/-- Writing a frame to PREV and completing changes PREV, PHASE and DONE alone. -/
theorem complete_storePrev_eq (F : List Byte) (s : State) : complete (storePrev F s) =
    { s with phase := .idle, done := true, prev := (complete (storePrev F s)).prev } := rfl

/-- Settles O35: CLRPREV writes the all-zero frame to PREV. -/
theorem clrprevBlackensPrev : Obligations.ClrprevBlackensPrev := by
  unfold Obligations.ClrprevBlackensPrev
  intro s
  refine ⟨_, exec_clrprev s, complete_storePrev_eq zeroFrame s, fun k => ?_⟩
  rw [complete_prev, storePrev_prev, prevByte_prevOfFrame_zeroFrame]

/-! ### What the commands write, and how they stop -/

/-- Settles O45: a command's own writes and the completion touch none of the other fields. -/
theorem commandsWriteOnlyTheirResults : Obligations.CommandsWriteOnlyTheirResults := by
  unfold Obligations.CommandsWriteOnlyTheirResults
  intro i s t run
  obtain ⟨F, ws, bs, P, r, ⟨rfl, rfl⟩ | ⟨rfl, rfl⟩ | ⟨rfl, rfl⟩ | ⟨rfl, rfl⟩ | ⟨rfl, rfl⟩⟩ := exec_next run <;>
    simp [ctrlWord]

/-- Of the commands DIFF and CLRPREV alone write PREV (R79). -/
theorem diff_or_clrprev_of_exec_changes_prev {i : Instr} {s t : State} (run : exec i s = .next t)
    (changed : t.prev ≠ s.prev) : i = .diff ∨ i = .clrprev := by
  obtain ⟨F, ws, bs, P, r, ⟨-, rfl⟩ | ⟨-, rfl⟩ | ⟨rfl, -⟩ | ⟨-, rfl⟩ | ⟨rfl, -⟩⟩ := exec_next run
  case inr.inr.inl => exact .inl rfl
  case inr.inr.inr.inr => exact .inr rfl
  all_goals exact absurd rfl changed

theorem exec_keeps_faultRecord {i : Instr} {s t : State} (run : exec i s = .next t) :
    t.faultRecord = s.faultRecord := by
  obtain ⟨F, ws, bs, P, r, ⟨-, rfl⟩ | ⟨-, rfl⟩ | ⟨-, rfl⟩ | ⟨-, rfl⟩ | ⟨-, rfl⟩⟩ := exec_next run
  all_goals rfl

/-- PACK and DIFF answer a next state or a fault, the others a next state: none is refused (R92). -/
theorem exec_ne_refused (i : Instr) (s : State) (q : Refusal) : exec i s ≠ .refused q := by
  cases i with
  | pack => simp only [exec, execPack]; split <;> nofun
  | diff => simp only [exec, execDiff]; split <;> nofun
  | nop | lookup | clrprev => nofun

/-- Only PACK and DIFF fault. -/
theorem pack_or_diff_of_exec_fault {i : Instr} {s : State} {r : Fault} (run : exec i s = .fault r) :
    i = .pack ∧ execPack s = .fault r ∨ i = .diff ∧ execDiff s = .fault r := by
  cases i with
  | pack => exact .inl ⟨rfl, run⟩
  | diff => exact .inr ⟨rfl, run⟩
  | nop | lookup | clrprev => cases run

/-- Settles O46: a fault is that of PACK at an unwritten sample or that of DIFF at an unwritten byte. -/
theorem onlyUninitArisesFromCommands : Obligations.OnlyUninitArisesFromCommands := by
  unfold Obligations.OnlyUninitArisesFromCommands
  refine fun i s => ⟨exec_ne_refused i s, fun r run => ?_⟩
  obtain ⟨rfl, fault⟩ | ⟨rfl, fault⟩ := pack_or_diff_of_exec_fault run
  · obtain ⟨k, hk, unwritten, -, rfl⟩ := execPack_fault.1 fault
    exact .inl ⟨rfl, _, rfl, by rwa [BitVec.toNat_ofNat, Nat.mod_eq_of_lt hk]⟩
  · obtain ⟨k, hk, unwritten, -, rfl⟩ := execDiff_fault.1 fault
    exact .inr ⟨rfl, _, rfl, by rwa [BitVec.toNat_ofNat, Nat.mod_eq_of_lt hk]⟩

/-- A command completes when its own operands are written: SMP for PACK, PKD for DIFF (R59, R92). -/
theorem exists_exec_next {i : Instr} {s : State} (smp : i = .pack → ∀ j < Config.npix, Memory.read s.smp j ≠ none)
    (pkd : i = .diff → ∀ k < Config.nbytes, Memory.read s.pkd k ≠ none) : ∃ t, exec i s = .next t := by
  cases i with
  | pack =>
    obtain ⟨S, hl, hS⟩ := exists_holds s.smp (smp rfl)
    exact ⟨_, execPack_of_holds hl hS⟩
  | diff =>
    obtain ⟨Q, hQ, hpkd⟩ := exists_holds s.pkd (pkd rfl)
    exact ⟨_, execDiff_of_holds hQ hpkd⟩
  | nop | lookup | clrprev => exact ⟨_, rfl⟩

/-! ### PACK -/

/-- Settles O19: PACK reads the samples in ascending order and stops at the first unwritten one. -/
theorem packFaultsAtFirstUnwrittenSample : Obligations.PackFaultsAtFirstUnwrittenSample := by
  unfold Obligations.PackFaultsAtFirstUnwrittenSample
  exact fun _ _ => execPack_fault

/-- PACK writes all the elements of PKD and no other field but PHASE and DONE (R69). -/
theorem eq_storePacked_of_exec_pack {s t : State} (run : exec .pack s = .next t) :
    ∃ F, isFrame F ∧ t = complete (storePacked F s) := by
  obtain ⟨S, hl, -, rfl⟩ := execPack_next run
  exact ⟨_, isFrame_packBits (by rw [List.length_map, hl]), rfl⟩

/-- After PACK the pixel of the sample at raster index `i` is bit `7 - (i mod 8)` of PKD byte `i div 8` (R69). -/
theorem exists_byte_sample_of_exec_pack {s t : State} (run : exec .pack s = .next t) {i : Nat} (hi : i < Config.npix) :
    ∃ b v, Memory.read t.pkd (i / 8) = some b ∧ Memory.read s.smp i = some v ∧ b.getLsbD (7 - i % 8) = pix v := by
  obtain ⟨F, hF, hpkd, pixels⟩ := exists_packed_of_exec_pack run
  obtain ⟨v, hv, bit⟩ := pixels i hi
  have byte : i / 8 < F.length := by rw [hF]; exact Nat.div_lt_of_lt_mul hi
  have smp : t.smp = s.smp := by obtain ⟨G, -, rfl⟩ := eq_storePacked_of_exec_pack run; rfl
  refine ⟨F[i / 8], v, (hpkd _ byte).trans (List.getElem?_eq_getElem byte), smp ▸ hv, ?_⟩
  rw [← bit, frameBit, List.getD_eq_getElem _ _ byte]

/-- Settles O18: PACK completes on a written SMP, byte `k` has the pixels of the samples from `8k` on, and no element
from 1024 on is written. -/
theorem packWritesPackedFrame : Obligations.PackWritesPackedFrame := by
  unfold Obligations.PackWritesPackedFrame
  intro s written
  obtain ⟨t, run⟩ := exists_exec_next (i := .pack) (fun _ => written) nofun
  refine ⟨t, run, ?_, fun k hk j hj => ?_, fun k hk => ?_⟩
  · obtain ⟨F, -, rfl⟩ := eq_storePacked_of_exec_pack run
    rfl
  · have placed := exists_byte_sample_of_exec_pack run (i := 8 * k + j) (by simp only [Config.npix]; omega)
    rwa [show (8 * k + j) / 8 = k by omega, show (8 * k + j) % 8 = j by omega] at placed
  · obtain ⟨F, hF, rfl⟩ := eq_storePacked_of_exec_pack run
    rw [complete_pkd, storePacked_pkd, read_ofList, List.getElem?_eq_none (hF.trans_le hk)]

/-- Settles O21: the pixel at (x, y) has raster index 128y + x, whose byte is 16y + x div 8 and whose place in it is
x mod 8. -/
theorem packPlacement : Obligations.PackPlacement := by
  unfold Obligations.PackPlacement
  intro s written
  obtain ⟨t, run⟩ := exists_exec_next (i := .pack) (fun _ => written) nofun
  refine ⟨t, run, fun x hx y hy => ?_⟩
  have placed := exists_byte_sample_of_exec_pack run (i := 128 * y + x) (by simp only [Config.npix]; omega)
  rwa [show (128 * y + x) / 8 = 16 * y + x / 8 by omega, show (128 * y + x) % 8 = x % 8 by omega] at placed

/-- Settles O22: PACK leaves SMP alone, so the second PACK packs the same samples. -/
theorem packIsRepeatable : Obligations.PackIsRepeatable := by
  unfold Obligations.PackIsRepeatable
  intro s t run
  obtain ⟨S, hl, hS, rfl⟩ := execPack_next run
  exact execPack_of_holds hl hS

end Sys2Proof.Proofs
end

section
/-! DIFF: the state it leaves (R73, R82), its lists as the Host reads them (R30, R61, R81), and the consumer that
applies their entries (R78, R80, R88). -/

namespace Sys2Proof.Proofs

open Sys2Proof Sys2Proof.Machine Sys2Proof.Laws

/-! ### The state DIFF leaves -/

/-- Settles O24: DIFF reads the bytes of PKD in ascending order and stops at the first unwritten one. -/
theorem diffFaultsAtFirstUnwrittenByte : Obligations.DiffFaultsAtFirstUnwrittenByte := by
  unfold Obligations.DiffFaultsAtFirstUnwrittenByte
  exact fun _ _ => execDiff_fault

/-- DIFF writes the frame it found in PKD to PREV, the two lists and their counts, and no other field but PHASE and
DONE (R73). -/
theorem eq_storePrev_of_exec_diff {s t : State} {Q : List Byte} (hQ : isFrame Q) (hpkd : Memory.holds s.pkd Q)
    (run : exec .diff s = .next t) : ∃ ws bs, t = complete (storePrev Q (storeLists ws bs s)) :=
  ⟨_, _, (Host.Outcome.next.inj ((execDiff_of_holds hQ hpkd).symm.trans run)).symm⟩

/-- Settles O23: the two lists hold the pixels their predicates pick, and PREV reads the frame written to it. -/
theorem diffWritesTransitions : Obligations.DiffWritesTransitions := by
  unfold Obligations.DiffWritesTransitions
  intro s Q hQ hpkd
  obtain ⟨t, run⟩ : ∃ t, exec .diff s = .next t := ⟨_, execDiff_of_holds hQ hpkd⟩
  obtain ⟨w2b, b2w⟩ := holdsPixels_of_exec_diff hQ hpkd run
  refine ⟨t, run, ?_, w2b.read_eq, b2w.read_eq, w2b.toNat_count, b2w.toNat_count, fun k => ?_⟩
  all_goals obtain ⟨ws, bs, rfl⟩ := eq_storePrev_of_exec_diff hQ hpkd run
  · rfl
  · rw [complete_prev, storePrev_prev, prevByte_prevOfFrame]

/-- Settles O34: every field DIFF writes is computed from the frames in PKD and PREV. -/
theorem diffDependsOnFramesOnly : Obligations.DiffDependsOnFramesOnly := by
  unfold Obligations.DiffDependsOnFramesOnly
  intro s t s' t' Q hQ hpkd hpkd' prev run run'
  obtain ⟨w2b, b2w⟩ := holdsPixels_of_exec_diff hQ hpkd run
  obtain ⟨w2b', b2w'⟩ := holdsPixels_of_exec_diff hQ hpkd' run'
  rw [← prev] at w2b' b2w'
  refine ⟨w2b.memory_eq.trans w2b'.memory_eq.symm, b2w.memory_eq.trans b2w'.memory_eq.symm,
    w2b.count_eq.trans w2b'.count_eq.symm, b2w.count_eq.trans b2w'.count_eq.symm, ?_⟩
  obtain ⟨ws, bs, rfl⟩ := eq_storePrev_of_exec_diff hQ hpkd run
  obtain ⟨ws', bs', rfl⟩ := eq_storePrev_of_exec_diff hQ hpkd' run'
  rw [complete_prev, complete_prev, storePrev_prev, storePrev_prev]

/-- Settles O36: against black no pixel is 1 before, so none turns black and every white one of PKD turns white. -/
theorem diffAgainstBlackIsFullFrame : Obligations.DiffAgainstBlackIsFullFrame := by
  unfold Obligations.DiffAgainstBlackIsFullFrame
  intro s Q black hQ hpkd
  obtain ⟨t, run⟩ : ∃ t, exec .diff s = .next t := ⟨_, execDiff_of_holds hQ hpkd⟩
  obtain ⟨w2b, b2w⟩ := holdsPixels_of_exec_diff hQ hpkd run
  have before : ∀ i ∈ List.range Config.npix, frameBit (prevFrame s.prev) i = false := by
    intro i hi
    have inFrame : i < Config.npix := List.mem_range.1 hi
    rw [frameBit_prevFrame s.prev inFrame, black _ (Nat.div_lt_of_lt_mul inFrame), BitVec.getLsbD_zero]
  refine ⟨t, run, ?_, ?_⟩
  · rw [w2b.count_eq, pixelsWhere, List.filter_eq_nil_iff.2 fun i hi => by simp [before i hi]]
    rfl
  · rw [b2w.listIndices_eq, pixelsWhere, pixelsWhere]
    exact List.filter_congr fun i hi => by simp [before i hi]

/-! ### The lists as the Host reads them -/

namespace HoldsPixels

variable {m : Memory 16} {count : BitVec 14} {f : Nat → Bool}

/-- From the count on no element is written (R30). -/
theorem read_of_count_le (h : HoldsPixels m count f) {j : Nat} (hj : count.toNat ≤ j) : Memory.read m j = none := by
  rw [h.read_eq, List.getElem?_eq_none (h.toNat_count ▸ hj), Option.map_none]

/-- A written element is the coordinate word of its picked pixel. -/
theorem exists_pixel_of_read (h : HoldsPixels m count f) {j : Nat} {w : BitVec 16} (hj : Memory.read m j = some w) :
    ∃ i, (pixelsWhere Config.npix f)[j]? = some i ∧ i < Config.npix ∧ w = coordWord i := by
  rw [h.read_eq] at hj
  obtain ⟨i, hi, e⟩ := Option.map_eq_some_iff.1 hj
  exact ⟨i, hi, pixelsWhere_lt (List.mem_of_getElem? hi), e.symm⟩

/-- Below the count every element is a coordinate word (R30, R61). -/
theorem exists_read_of_lt_count (h : HoldsPixels m count f) {j : Nat} (hj : j < count.toNat) :
    ∃ w, Memory.read m j = some w ∧ coordWordWellFormed w = true := by
  have inside : j < (pixelsWhere Config.npix f).length := h.toNat_count ▸ hj
  refine ⟨_, by rw [h.read_eq, List.getElem?_eq_getElem inside, Option.map_some], ?_⟩
  exact coordWordWellFormed_coordWord (pixelsWhere_lt (List.getElem_mem inside))

end HoldsPixels

theorem hostRead_w2b_of_idle {s : State} (hs : s.phase = .idle) (j : BitVec 13) :
    hostRead s (.w2b j) = valueOr (.w2b j) (Memory.read s.w2b j.toNat) := if_neg (not_hazard_of_idle hs _)

theorem hostRead_b2w_of_idle {s : State} (hs : s.phase = .idle) (j : BitVec 13) :
    hostRead s (.b2w j) = valueOr (.b2w j) (Memory.read s.b2w j.toNat) := if_neg (not_hazard_of_idle hs _)

/-- Settles O32: while IDLE a list read answers what the list memory holds, which is written below the count alone. -/
theorem listReadsEndAtCount : Obligations.ListReadsEndAtCount := by
  unfold Obligations.ListReadsEndAtCount
  intro s t run j
  obtain ⟨Q, hQ, hpkd⟩ := exists_frame_of_exec_diff run
  obtain ⟨w2b, b2w⟩ := holdsPixels_of_exec_diff hQ hpkd run
  have idle : t.phase = .idle := by
    obtain ⟨ws, bs, rfl⟩ := eq_storePrev_of_exec_diff hQ hpkd run
    rfl
  rw [hostRead_w2b_of_idle idle, hostRead_b2w_of_idle idle]
  refine ⟨fun hj => ?_, fun hj => ?_, fun hj => ?_, fun hj => ?_⟩
  · rw [w2b.read_of_count_le hj]; rfl
  · obtain ⟨w, read, wf⟩ := w2b.exists_read_of_lt_count hj
    exact ⟨w, by rw [read]; rfl, wf⟩
  · rw [b2w.read_of_count_le hj]; rfl
  · obtain ⟨w, read, wf⟩ := b2w.exists_read_of_lt_count hj
    exact ⟨w, by rw [read]; rfl, wf⟩

/-- The coordinate word of a raster index denotes its column and row (R10, R61). -/
theorem coordPair_coordWord {i : Nat} (hi : i < Config.npix) : coordPair (coordWord i) = (i % 128, i / 128) := by
  simp only [coordPair, coordX, coordY, uint, BitVec.extractLsb'_toNat, coordWord_toNat hi, Nat.shiftRight_eq_div_pow,
    Prod.mk.injEq]
  simp only [Config.npix] at hi
  omega

/-- An element of a list denotes the column and row of its picked pixel, in bounds (R81). -/
theorem HoldsPixels.coordinates_of_read {m : Memory 16} {count : BitVec 14} {f : Nat → Bool}
    (h : HoldsPixels m count f) {j : Nat} {w : BitVec 16} (hj : Memory.read m j = some w) :
    ∃ i, (pixelsWhere Config.npix f)[j]? = some i ∧ coordPair w = (i % 128, i / 128) ∧ i / 128 < 64 ∧
      w.extractLsb' 13 3 = 0#3 := by
  obtain ⟨i, pixel, hi, rfl⟩ := h.exists_pixel_of_read hj
  exact ⟨i, pixel, coordPair_coordWord hi, Nat.div_lt_of_lt_mul hi, beq_iff_eq.1 (coordWordWellFormed_coordWord hi)⟩

/-- Settles O33: entry `j` of a list is the coordinate word of the `j`-th pixel its predicate picks. -/
theorem listEntriesAreCoordinates : Obligations.ListEntriesAreCoordinates := by
  unfold Obligations.ListEntriesAreCoordinates
  intro s t Q hQ hpkd run j w
  obtain ⟨w2b, b2w⟩ := holdsPixels_of_exec_diff hQ hpkd run
  exact ⟨w2b.coordinates_of_read, b2w.coordinates_of_read⟩

/-! ### A consumer of the entries -/

/-- The entries after DIFF name exactly the pixels in which P and Q differ, each with its value in Q (R75, R78). -/
theorem mem_entries_iff {s t : State} {Q : List Byte} (hQ : isFrame Q) (hpkd : Memory.holds s.pkd Q)
    (run : exec .diff s = .next t) {e : PixelWrite} :
    e ∈ t.entries ↔ e.1 < Config.npix ∧ frameBit (prevFrame s.prev) e.1 ≠ frameBit Q e.1 ∧ e.2 = frameBit Q e.1 := by
  obtain ⟨w2b, b2w⟩ := holdsPixels_of_exec_diff hQ hpkd run
  rw [State.entries, mem_pixelWrites, w2b.listIndices_eq, b2w.listIndices_eq, mem_pixelsWhere, mem_pixelsWhere]
  cases frameBit (prevFrame s.prev) e.1 <;> cases frameBit Q e.1 <;> simp

/-- Settles O30: the entries name each changed pixel with its one new value, so in any order they leave Q's pixels. -/
theorem deltaCorrectness : Obligations.DeltaCorrectness := by
  unfold Obligations.DeltaCorrectness
  intro s t Q es hQ hpkd run perm
  have entry : ∀ e, e ∈ es ↔ e.1 < Config.npix ∧ frameBit (prevFrame s.prev) e.1 ≠ frameBit Q e.1 ∧
      e.2 = frameBit Q e.1 := fun e => perm.mem_iff.trans (mem_entries_iff hQ hpkd run)
  have length : (es.foldl applyPixel (prevFrame s.prev)).length = Q.length := by
    rw [length_foldl_applyPixel, length_prevFrame, hQ]
  refine frame_ext length fun j hj => ?_
  have inP : j < 8 * (prevFrame s.prev).length := by rwa [length_foldl_applyPixel] at hj
  have inFrame : j < Config.npix := by rwa [length_prevFrame, eight_mul_nbytes] at inP
  by_cases same : frameBit (prevFrame s.prev) j = frameBit Q j
  · rw [frameBit_foldl_of_not_mem es _ inP fun e he named => ?_, same]
    obtain ⟨-, differ, -⟩ := (entry e).1 he
    exact differ (named ▸ same)
  · refine frameBit_foldl_of_mem es _ inP ((entry _).2 ⟨inFrame, same, rfl⟩) fun e he named => ?_
    obtain ⟨-, -, value⟩ := (entry e).1 he
    rw [value, named]

/-- One frame of a replay: with the buffer equal to PREV, DIFF completes, and its entries leave the frame in the buffer
and in PREV alike (R78). -/
theorem exists_diff_replays {s : State} {Q : List Byte} (hQ : isFrame Q) :
    ∃ t, exec .diff { s with pkd := Memory.ofList Q } = .next t ∧
      t.entries.foldl applyPixel (prevFrame s.prev) = Q ∧ prevFrame t.prev = Q := by
  have hpkd : Memory.holds (Memory.ofList Q) Q := fun i _ => read_ofList Q i
  obtain ⟨t, run⟩ : ∃ t, exec .diff { s with pkd := Memory.ofList Q } = .next t := ⟨_, execDiff_of_holds hQ hpkd⟩
  refine ⟨t, run, deltaCorrectness { s with pkd := Memory.ofList Q } t Q _ hQ hpkd run (List.Perm.refl _), ?_⟩
  obtain ⟨ws, bs, rfl⟩ := eq_storePrev_of_exec_diff hQ hpkd run
  rw [complete_prev, storePrev_prev, prevFrame_prevOfFrame hQ]

/-- A replay from a buffer equal to PREV reproduces the frames. -/
theorem replay_prevFrame (s : State) (Qs : List (List Byte)) (frames : ∀ Q ∈ Qs, isFrame Q) :
    replay s (prevFrame s.prev) Qs = some Qs := by
  induction Qs generalizing s with
  | nil => rfl
  | cons Q Qs ih =>
    obtain ⟨hQ, hQs⟩ := List.forall_mem_cons.1 frames
    obtain ⟨t, run, buffer, prev⟩ := exists_diff_replays (s := s) hQ
    have rest := ih t hQs
    rw [prev] at rest
    simp only [replay, run, buffer, rest]

/-- Settles O31: at the start the buffer equals PREV, both black. -/
theorem sequentialReplayEquivalence : Obligations.SequentialReplayEquivalence := by
  unfold Obligations.SequentialReplayEquivalence
  intro s Qs black frames
  rw [← black]
  exact replay_prevFrame s Qs frames

/-- With LOOKUP's results a consumer's clear and set are those of the pixel at the raster index they name (R88). -/
theorem NamesPixel.modify_eq_applyPixel {t : State} {i : Nat} (h : NamesPixel t i) (G : List Byte) :
    (G.modify (lkByte t.lkRes) fun b => b &&& ~~~t.lkMask) = applyPixel G (i, false) ∧
      (G.modify (lkByte t.lkRes) fun b => b ||| t.lkMask) = applyPixel G (i, true) := by
  rw [h.byte_eq, h.mask_eq]
  exact ⟨rfl, rfl⟩

/-- Settles O41: LOOKUP names the pixel at index 128y + x, and a clear or set of it changes that pixel alone. -/
theorem consumerWritesOnePixel : Obligations.ConsumerWritesOnePixel := by
  unfold Obligations.ConsumerWritesOnePixel
  intro s t G x y hx hy hX hY hG run j hj
  obtain ⟨clear, set⟩ := (namesPixel_of_exec_lookup hx hy hX hY run).modify_eq_applyPixel G
  have inG : j < 8 * G.length := by rwa [hG, eight_mul_nbytes]
  rw [clear, set, frameBit_applyPixel G _ inG, frameBit_applyPixel G _ inG]
  by_cases h : j = 128 * y + x <;> simp [h]

end Sys2Proof.Proofs
end

section
/-! Command words and their commands (R56), and Host accesses while IDLE: registers (R18), unwritten elements (R44), and
writes of SMP and PKD (R39). -/

namespace Sys2Proof.Proofs

open Sys2Proof Sys2Proof.Machine Sys2Proof.Laws

/-! ### Decoding and encoding -/

/-- A word is its two fields (R55). -/
theorem toNat_eq_rsvField_opField (w : BitVec 8) : w.toNat = 16 * (rsvField w).toNat + (opField w).toNat := by
  simp only [rsvField, opField, BitVec.extractLsb'_toNat, Nat.shiftRight_eq_div_pow]
  have := w.isLt
  omega

/-- A command has one word: the one that decodes to it. -/
theorem encode_of_decode {w : BitVec 8} {i : Instr} (h : decode w = .ok i) : encode i = w := by
  obtain ⟨rsv, op⟩ := decode_eq_ok_iff.1 h
  apply BitVec.eq_of_toNat_eq
  rw [opcode_eq_some_iff.1 op, toNat_eq_rsvField_opField w, rsv, BitVec.toNat_ofNat, Nat.zero_mod, Nat.mul_zero,
    Nat.zero_add]

/-- Settles O4: the word of each command is evaluated, and a word that decodes is the word of its command. -/
theorem decodeEncodeAgree : Obligations.DecodeEncodeAgree := by
  unfold Obligations.DecodeEncodeAgree
  refine ⟨fun i => ?_, fun w i => encode_of_decode⟩
  cases i <;> exact ⟨rfl, rfl⟩

/-! ### Register reads -/

/-- Settles O15: CMD, STATUS and CTRL are outside the blocked set, and while IDLE no read is a hazard. -/
theorem registerReads : Obligations.RegisterReads := by
  unfold Obligations.RegisterReads
  intro s
  have control : ∀ i : BitVec 4, i.toNat < 3 → hostRead s (.reg i) = .ok (readReg s i) :=
    fun i hi => hostRead_reg_of_not_hazard (not_hazard_of_control s hi)
  refine ⟨control 0#4 (by decide), control 1#4 (by decide), control 2#4 (by decide), fun hs => ?_⟩
  have register : ∀ i : BitVec 4, hostRead s (.reg i) = .ok (readReg s i) :=
    fun i => hostRead_reg_of_not_hazard (not_hazard_of_idle hs _)
  exact ⟨register 3#4, register 4#4, register 5#4, register 6#4, register 7#4, register 8#4,
    fun k => if_neg (not_hazard_of_idle hs _)⟩

/-! ### Memory elements while IDLE -/

theorem hostRead_smp_of_idle {s : State} (hs : s.phase = .idle) (i : BitVec 13) :
    hostRead s (.smp i) = valueOr (.smp i) (Memory.read s.smp i.toNat) := if_neg (not_hazard_of_idle hs _)

theorem hostRead_pkd_of_idle {s : State} (hs : s.phase = .idle) (k : BitVec 10) :
    hostRead s (.pkd k) = valueOr (.pkd k) (Memory.read s.pkd k.toNat) := if_neg (not_hazard_of_idle hs _)

/-- Settles O13: while IDLE a read answers what the memory holds, written or not. -/
theorem unwrittenHostReadFaults : Obligations.UnwrittenHostReadFaults := by
  unfold Obligations.UnwrittenHostReadFaults
  refine fun s hs => ⟨fun i => ?_, fun k => ?_, fun j => ?_, fun j => ?_⟩
  · rw [hostRead_smp_of_idle hs]; cases Memory.read s.smp i.toNat <;> rfl
  · rw [hostRead_pkd_of_idle hs]; cases Memory.read s.pkd k.toNat <;> rfl
  · rw [hostRead_w2b_of_idle hs]; cases Memory.read s.w2b j.toNat <;> rfl
  · rw [hostRead_b2w_of_idle hs]; cases Memory.read s.b2w j.toNat <;> rfl

theorem hostWrite_smp_of_idle {s : State} (hs : s.phase = .idle) (i : BitVec 13) (v : BitVec 8) :
    hostWrite s (.smp i) v = .ok (writeSmp i.toNat v s) := if_neg (not_hazard_of_idle hs _)

theorem hostWrite_pkd_of_idle {s : State} (hs : s.phase = .idle) (k : BitVec 10) (v : BitVec 8) :
    hostWrite s (.pkd k) v = .ok (writePkd k.toNat v s) := if_neg (not_hazard_of_idle hs _)

/-- A write to an element of SMP leaves every other location as it read before (R39). -/
theorem hostRead_writeSmp_of_ne {s : State} (hs : s.phase = .idle) {i : BitVec 13} (v : BitVec 8) {l : Loc}
    (h : l ≠ .smp i) : hostRead (writeSmp i.toNat v s) l = hostRead s l := by
  cases l with
  | smp j =>
    have index : j.toNat ≠ i.toNat := fun e => h (congrArg Loc.smp (BitVec.eq_of_toNat_eq e))
    rw [hostRead_smp_of_idle hs, hostRead_smp_of_idle (s := writeSmp i.toNat v s) hs, writeSmp_smp,
      read_write_other _ index]
  | reg _ | pkd _ | prev _ | w2b _ | b2w _ => rfl

/-- A write to an element of PKD leaves every other location as it read before (R39). -/
theorem hostRead_writePkd_of_ne {s : State} (hs : s.phase = .idle) {k : BitVec 10} (v : BitVec 8) {l : Loc}
    (h : l ≠ .pkd k) : hostRead (writePkd k.toNat v s) l = hostRead s l := by
  cases l with
  | pkd j =>
    have index : j.toNat ≠ k.toNat := fun e => h (congrArg Loc.pkd (BitVec.eq_of_toNat_eq e))
    rw [hostRead_pkd_of_idle hs, hostRead_pkd_of_idle (s := writePkd k.toNat v s) hs, writePkd_pkd,
      read_write_other _ index]
  | reg _ | smp _ | prev _ | w2b _ | b2w _ => rfl

/-- Settles O14: the write stores its value in the one element, and a read of any other location does not see it. -/
theorem hostMemoryWriteReadsBack : Obligations.HostMemoryWriteReadsBack := by
  unfold Obligations.HostMemoryWriteReadsBack
  refine fun s hs => ⟨fun i v => ?_, fun k v => ?_⟩
  · refine ⟨_, hostWrite_smp_of_idle hs i v, rfl, ?_, fun l => hostRead_writeSmp_of_ne hs v⟩
    rw [hostRead_smp_of_idle (s := writeSmp i.toNat v s) hs, writeSmp_smp, read_write_same]
    rfl
  · refine ⟨_, hostWrite_pkd_of_idle hs k v, rfl, ?_, fun l => hostRead_writePkd_of_ne hs v⟩
    rw [hostRead_pkd_of_idle (s := writePkd k.toNat v s) hs, writePkd_pkd, read_write_same]
    rfl

end Sys2Proof.Proofs
end

section
/-! Turns: which step a chosen turn is (R13, R51), reset (R113), the pending command (R92) and the Host
statement (R64). -/

namespace Sys2Proof.Proofs

open Sys2Proof Sys2Proof.Machine Sys2Proof.Laws

/-! ### The step of a chosen turn -/

section

variable {s : State} {ts : List Turn}

theorem step_of_no_turn (h : chooseTurn s s.schedule = none) : step s = .fault .stuck := by
  simp only [step, takeTurn, h]

theorem step_of_host_turn (h : chooseTurn s s.schedule = some (.host, ts)) :
    step s = hostStep (withSchedule ts s) := by
  simp only [step, takeTurn, h]

theorem step_of_reset_turn (h : chooseTurn s s.schedule = some (.reset, ts)) :
    step s = .next (resetBlock (withSchedule ts s)) := by
  simp only [step, takeTurn, h]

theorem step_of_engine_turn {i : Instr} (h : chooseTurn s s.schedule = some (.engine, ts)) (hi : decode s.cmd = .ok i) :
    step s = exec i (withSchedule ts s) := by
  simp only [step, takeTurn, h, engineStep, withSchedule_cmd, hi]

end

/-- A scheduled turn that can be taken comes next. -/
theorem chooseTurn_of_schedule_cons {s : State} {u : Turn} {ts : List Turn} (schedule : s.schedule = u :: ts)
    (h : enabled s u = true) : chooseTurn s s.schedule = some (u, ts) := by
  rw [schedule, chooseTurn_cons ts h]

/-- With no turn scheduled the Engine performs a pending command (R92). -/
theorem chooseTurn_engine_of_schedule_nil {s : State} (schedule : s.schedule = []) (h : enabled s .engine = true) :
    chooseTurn s s.schedule = some (.engine, []) := by
  rw [schedule, chooseTurn, if_pos h]

/-- With no turn scheduled and no command pending the Host goes on. -/
theorem chooseTurn_host_of_schedule_nil {s : State} (schedule : s.schedule = []) (idle : s.phase = .idle)
    (h : enabled s .host = true) : chooseTurn s s.schedule = some (.host, []) := by
  have engine : ¬enabled s .engine = true := by simp [enabled, idle]
  rw [schedule, chooseTurn, if_neg engine, if_pos h]

theorem withSchedule_self {s : State} {ts : List Turn} (h : s.schedule = ts) : withSchedule ts s = s := by
  subst h; rfl

/-- Settles O2: reset can always be taken, and the block it leaves is that of the reset state. -/
theorem resetAbandonsPendingCommand : Obligations.ResetAbandonsPendingCommand := by
  unfold Obligations.ResetAbandonsPendingCommand
  intro s ts schedule
  exact ⟨step_of_reset_turn (chooseTurn_of_schedule_cons schedule (enabled_reset s)), rfl, rfl⟩

/-! ### The Engine's turn -/

/-- Settles O42: the Engine has a step, so its scheduled turn is the next one, and with none scheduled it goes first. -/
theorem stepRunsPendingCommand : Obligations.StepRunsPendingCommand := by
  unfold Obligations.StepRunsPendingCommand
  intro s i record busy hi
  have engine := enabled_engine.2 ⟨record, busy⟩
  refine ⟨fun ts schedule => ?_, fun schedule => ?_⟩
  · exact step_of_engine_turn (chooseTurn_of_schedule_cons schedule engine) hi
  · rw [step_of_engine_turn (chooseTurn_engine_of_schedule_nil schedule engine) hi, withSchedule_self schedule]

theorem decode_of_decodeTableWord {nbits w : Nat} {i : Instr} (h : decodeTableWord nbits w = some i) :
    decode (tableWord nbits w) = .ok i := by
  unfold decodeTableWord at h
  split at h
  case h_1 j hj => exact Option.some.inj h ▸ hj
  case h_2 => cases h

/-- Settles O43: the placed state has nothing faulted, the word pending and the Engine's turn first. -/
theorem placedWordRunsNext : Obligations.PlacedWordRunsNext := by
  unfold Obligations.PlacedWordRunsNext
  intro s nbits w i h
  have hi := decode_of_decodeTableWord h
  obtain ⟨scheduled, -⟩ := stepRunsPendingCommand (s.withFetchWord nbits w) i rfl rfl hi
  exact ⟨_, scheduled s.schedule rfl, rfl, hi⟩

/-- STATUS after a command: DONE alone is set beside the error flags as they were (R20, R92). -/
theorem statusWord_of_completed {s t : State} (phase : t.phase = .idle) (done : t.done = true)
    (illegal : t.errIllegal = s.errIllegal) (busy : t.errBusy = s.errBusy) :
    statusWord t = (statusWord s &&& 0x0C#8) ||| 0x02#8 := by
  simp only [statusWord, State.busy, phase, done, illegal, busy]
  cases s.errBusy <;> cases s.errIllegal <;> cases s.done <;> cases s.phase <;> rfl

/-- Settles O47: the step is the pending command, which completes on its written operands and keeps the error flags. -/
theorem pendingCommandCompletes : Obligations.PendingCommandCompletes := by
  unfold Obligations.PendingCommandCompletes
  intro s i ts hi record busy schedule smp pkd
  obtain ⟨scheduled, unscheduled⟩ := stepRunsPendingCommand s i record busy hi
  obtain ⟨us, performs⟩ : ∃ us, step s = exec i (withSchedule us s) := by
    obtain none | some := schedule
    · exact ⟨[], by rw [unscheduled none, withSchedule_self none]⟩
    · exact ⟨ts, scheduled ts some⟩
  obtain ⟨t, run⟩ := exists_exec_next (i := i) (s := withSchedule us s) smp pkd
  obtain ⟨phase, done, -, illegal, errBusy, -⟩ := commandsWriteOnlyTheirResults i _ t run
  exact ⟨t, performs.trans run, statusWord_of_completed phase done illegal errBusy⟩

/-! ### The Host's turn -/

theorem hostStep_of_runStmt_ok {s t : State} {st : Stmt} (hst : s.host.prog[s.host.pos]? = some st)
    (run : runStmt st s = .ok t) : hostStep s = .next t := by
  simp only [hostStep, hst, run]

theorem hostStep_of_runStmt_error {s : State} {st : Stmt} {r : Fault} (hst : s.host.prog[s.host.pos]? = some st)
    (run : runStmt st s = .error r) : hostStep s = .fault r := by
  simp only [hostStep, hst, run]

/-- The Host runs while it has not halted and has a next statement. -/
theorem running_iff {g : HostAgent} : g.running = true ↔ g.halted = false ∧ g.pos < g.prog.length := by
  simp [HostAgent.running]

theorem running_of_getElem? {g : HostAgent} {st : Stmt} (halted : g.halted = false) (hst : g.prog[g.pos]? = some st) :
    g.running = true := running_iff.2 ⟨halted, (List.getElem?_eq_some_iff.1 hst).1⟩

/-- Settles O44: the Host has a step, so its scheduled turn is the next one, and with none scheduled and nothing pending
it goes on. -/
theorem stepRunsHostStatement : Obligations.StepRunsHostStatement := by
  unfold Obligations.StepRunsHostStatement
  intro s st record halted hst
  have host := enabled_host.2 ⟨record, running_of_getElem? halted hst⟩
  refine ⟨fun ts schedule => ?_, fun schedule idle => ?_⟩
  · rw [step_of_host_turn (chooseTurn_of_schedule_cons schedule host)]
    exact ⟨fun t => hostStep_of_runStmt_ok hst, fun r => hostStep_of_runStmt_error hst⟩
  · rw [step_of_host_turn (chooseTurn_host_of_schedule_nil schedule idle host), withSchedule_self schedule]
    exact ⟨fun t => hostStep_of_runStmt_ok hst, fun r => hostStep_of_runStmt_error hst⟩

end Sys2Proof.Proofs
end

section
/-! What a turn can change: PHASE and CMD (R98), PREV (R79), the error flags (R99), and a pending command (R53). -/

namespace Sys2Proof.Proofs

open Sys2Proof Sys2Proof.Machine Sys2Proof.Laws

/-! ### One Host write -/

section

variable {s t : State} {l : Loc} {v : BitVec l.width}

/-- A Host write changes PHASE or CMD only by accepting a command word while IDLE (R91). -/
theorem hostWrite_accepts_or_keeps (h : hostWrite s l v = .ok t) :
    t.phase = s.phase ∧ t.cmd = s.cmd ∨
      s.phase = .idle ∧ t.phase = .busy ∧ t.done = false ∧ ∃ i, decode t.cmd = .ok i := by
  obtain ⟨-, rfl | ⟨rfl, -⟩ | ⟨rfl, -⟩ | ⟨w, i, hw, idle, rfl⟩ | ⟨x, rfl⟩ | ⟨x, rfl⟩ |
    ⟨-, ⟨x, rfl⟩ | ⟨x, rfl⟩ | ⟨i, x, -, rfl⟩ | ⟨i, x, -, rfl⟩⟩⟩ := hostWrite_ok h
  case inr.inr.inr.inl => exact .inr ⟨idle, rfl, rfl, i, hw⟩
  all_goals exact .inl ⟨rfl, rfl⟩

/-- No Host write changes PREV or the fault record (R40). -/
theorem hostWrite_keeps_prev_faultRecord (h : hostWrite s l v = .ok t) :
    t.prev = s.prev ∧ t.faultRecord = s.faultRecord := by
  obtain ⟨-, rfl | ⟨rfl, -⟩ | ⟨rfl, -⟩ | ⟨w, i, -, -, rfl⟩ | ⟨x, rfl⟩ | ⟨x, rfl⟩ |
    ⟨-, ⟨x, rfl⟩ | ⟨x, rfl⟩ | ⟨i, x, -, rfl⟩ | ⟨i, x, -, rfl⟩⟩⟩ := hostWrite_ok h
  all_goals exact ⟨rfl, rfl⟩

/-- While BUSY a Host write that is no hazard changes the STATUS flags and CTRL alone (R53, R90). -/
theorem eq_of_hostWrite_of_busy (busy : s.phase = .busy) (h : hostWrite s l v = .ok t) :
    t = { s with done := t.done, errIllegal := t.errIllegal, errBusy := t.errBusy, ieDone := t.ieDone,
                 ieErr := t.ieErr } := by
  have notIdle : s.phase ≠ .idle := by rw [busy]; decide
  obtain ⟨-, rfl | ⟨rfl, -⟩ | ⟨rfl, -⟩ | ⟨w, i, -, idle, rfl⟩ | ⟨x, rfl⟩ | ⟨x, rfl⟩ | ⟨idle, -⟩⟩ := hostWrite_ok h
  case inr.inr.inr.inl => exact absurd idle notIdle
  case inr.inr.inr.inr.inr.inr => exact absurd idle notIdle
  all_goals rfl

end

/-- A write to any register but CMD raises no error flag (R95 to R97). -/
theorem writeReg_raises_no_error {i : BitVec 4} (v : BitVec 16) (s : State) (cmd : i ≠ 0#4) :
    ((writeReg i v s).errBusy = true → s.errBusy = true) ∧
      ((writeReg i v s).errIllegal = true → s.errIllegal = true) := by
  unfold writeReg
  split
  case h_1 index => exact absurd (BitVec.eq_of_toNat_eq index) cmd
  case h_2 =>
    rw [writeStatus_errBusy, writeStatus_errIllegal]
    exact ⟨fun raised => (Bool.and_eq_true_iff.1 raised).1, fun raised => (Bool.and_eq_true_iff.1 raised).1⟩
  all_goals exact ⟨id, id⟩

/-- A Host write to any location but CMD raises no error flag (R99). -/
theorem hostWrite_raises_no_error {s t : State} {l : Loc} {v : BitVec l.width} (cmd : l ≠ .reg 0#4)
    (h : hostWrite s l v = .ok t) :
    (t.errBusy = true → s.errBusy = true) ∧ (t.errIllegal = true → s.errIllegal = true) := by
  have free : ¬(s.phase = .busy ∧ l.blocked = true) := (hostWrite_ok h).1
  unfold hostWrite at h
  rw [if_neg free] at h
  cases l with
  | reg i => cases h; exact writeReg_raises_no_error v s fun e => cmd (congrArg Loc.reg e)
  | smp _ | pkd _ | prev _ | w2b _ | b2w _ => cases h; exact ⟨id, id⟩

/-- A Host write that raises ERR_BUSY is a CMD write while BUSY, and one that raises ERR_ILLEGAL a CMD write while IDLE
(R90, R99). -/
theorem cmd_of_hostWrite_raises_error {s t : State} {l : Loc} {v : BitVec l.width} (h : hostWrite s l v = .ok t)
    (raised : t.errBusy = true ∧ s.errBusy = false ∨ t.errIllegal = true ∧ s.errIllegal = false) :
    l = .reg 0#4 ∧ (t.errBusy = true ∧ s.errBusy = false → s.phase = .busy) ∧
      (t.errIllegal = true ∧ s.errIllegal = false → s.phase = .idle) := by
  constructor
  · by_contra cmd
    obtain ⟨busy, illegal⟩ := hostWrite_raises_no_error cmd h
    obtain ⟨ht, hs⟩ | ⟨ht, hs⟩ := raised
    · exact absurd (busy ht) (by simp [hs])
    · exact absurd (illegal ht) (by simp [hs])
  · obtain ⟨-, rfl | ⟨rfl, busy⟩ | ⟨rfl, idle⟩ | ⟨w, i, -, -, rfl⟩ | ⟨x, rfl⟩ | ⟨x, rfl⟩ |
      ⟨-, ⟨x, rfl⟩ | ⟨x, rfl⟩ | ⟨i, x, -, rfl⟩ | ⟨i, x, -, rfl⟩⟩⟩ := hostWrite_ok h
    case inr.inl => exact ⟨fun _ => busy, fun flag => absurd flag (by simp)⟩
    case inr.inr.inl => exact ⟨fun flag => absurd flag (by simp), fun _ => idle⟩
    all_goals exact ⟨fun flag => absurd flag (by simp_all), fun flag => absurd flag (by simp_all)⟩

/-! ### Turns -/

/-- A Host step changes PHASE or CMD only by accepting a command word while IDLE (R91). -/
theorem hostStep_accepts_or_keeps {s t : State} (h : hostStep s = .next t) :
    t.phase = s.phase ∧ t.cmd = s.cmd ∨
      s.phase = .idle ∧ t.phase = .busy ∧ t.done = false ∧ ∃ i, decode t.cmd = .ok i := by
  obtain ⟨g, r, rfl, rfl | ⟨l, v, write⟩⟩ := hostStep_eq_withHost h
  · exact .inl ⟨rfl, rfl⟩
  · exact hostWrite_accepts_or_keeps (t := r) write

/-- Settles O50: a Host write accepts a command or keeps PHASE and CMD, a command completes to IDLE, and the rest is
reset. -/
theorem phaseFollowsCommandProtocol : Obligations.PhaseFollowsCommandProtocol := by
  unfold Obligations.PhaseFollowsCommandProtocol
  intro s t h
  obtain ⟨u, ts, turn, ⟨rfl, host⟩ | ⟨rfl, i, hi, run⟩ | ⟨rfl, rfl⟩⟩ := step_next h
  · obtain ⟨phase, cmd⟩ | ⟨idle, busy, done, command⟩ := hostStep_accepts_or_keeps host
    · exact ⟨_, ts, turn, by simp +contextual [phase, cmd]⟩
    · exact ⟨_, ts, turn, fun _ _ => ⟨rfl, done, command⟩, by simp [busy], fun _ => .inr ⟨rfl, idle, busy⟩⟩
  · obtain ⟨phase, -, cmd, -⟩ := commandsWriteOnlyTheirResults i _ t run
    exact ⟨_, ts, turn, by simp [phase], fun _ _ => .inr ⟨rfl, i, hi, run⟩, fun changed => absurd cmd changed⟩
  · exact ⟨_, ts, turn, fun _ busy => (nomatch busy), fun _ _ => .inl rfl, fun _ => .inl rfl⟩

/-- Settles O51: no Host write reaches PREV, and of the commands DIFF and CLRPREV alone write it. -/
theorem prevWrittenOnlyByDiffClrprevReset : Obligations.PrevWrittenOnlyByDiffClrprevReset := by
  unfold Obligations.PrevWrittenOnlyByDiffClrprevReset
  intro s t h changed
  obtain ⟨u, ts, turn, ⟨rfl, host⟩ | ⟨rfl, i, hi, run⟩ | ⟨rfl, -⟩⟩ := step_next h
  · obtain ⟨g, r, rfl, rfl | ⟨l, v, write⟩⟩ := hostStep_eq_withHost host
    · exact absurd rfl changed
    · exact absurd (hostWrite_keeps_prev_faultRecord write).1 changed
  · refine ⟨_, ts, turn, .inr ⟨rfl, ?_⟩⟩
    obtain rfl | rfl := diff_or_clrprev_of_exec_changes_prev run changed
    · exact .inl hi
    · exact .inr hi
  · exact ⟨_, ts, turn, .inl rfl⟩

/-- Settles O52: an `RD` that answers leaves the block as it is, and only the Host and the schedule differ. -/
theorem hostReadsHaveNoSideEffect : Obligations.HostReadsHaveNoSideEffect := by
  unfold Obligations.HostReadsHaveNoSideEffect
  intro s t name cell sp index ts turn hst h
  rw [step_of_host_turn turn] at h
  obtain ⟨st, hst', run⟩ := hostStep_next h
  obtain rfl : .rd name cell sp index = st := Option.some.inj (hst.symm.trans hst')
  obtain ⟨g, rfl⟩ | ⟨sp', index', value, r, wr, -⟩ := runStmt_ok run
  · exact ⟨rfl, fun l => by cases l <;> rfl⟩
  · cases wr

/-- Settles O53: while BUSY the one Host write that a statement makes reaches the flags and CTRL alone. -/
theorem hostCannotDisturbPendingCommand : Obligations.HostCannotDisturbPendingCommand := by
  unfold Obligations.HostCannotDisturbPendingCommand
  intro s t ts busy turn h
  rw [step_of_host_turn turn] at h
  obtain ⟨g, r, rfl, rfl | ⟨l, v, write⟩⟩ := hostStep_eq_withHost h
  · rfl
  · rw [eq_of_hostWrite_of_busy (s := withSchedule ts s) busy write]
    rfl

/-- Location CMD is an element of REG alone. -/
theorem reg_of_loc_eq_cmd {sp : Space} {z : Int} (h : sp.loc z = .reg 0#4) : sp = .reg := by
  cases sp with
  | reg => rfl
  | smp | pkd | prev | w2b | b2w => cases h

/-- Settles O58: a command keeps the error flags and reset clears them, so the raise is a Host write, to CMD. -/
theorem errorFlagsRaisedOnlyByCmdWrites : Obligations.ErrorFlagsRaisedOnlyByCmdWrites := by
  unfold Obligations.ErrorFlagsRaisedOnlyByCmdWrites
  intro s t h raised
  obtain ⟨u, ts, turn, ⟨rfl, host⟩ | ⟨rfl, i, hi, run⟩ | ⟨rfl, rfl⟩⟩ := step_next h
  · obtain ⟨st, hst, run⟩ := hostStep_next host
    obtain ⟨g, rfl⟩ | ⟨sp, index, value, r, rfl, write, rfl⟩ := runStmt_ok run
    · simp at raised
    · obtain ⟨cmd, phases⟩ := cmd_of_hostWrite_raises_error write raised
      obtain rfl := reg_of_loc_eq_cmd cmd
      exact ⟨ts, index, value, turn, hst, cmd, phases⟩
  · obtain ⟨-, -, -, illegal, busy, -⟩ := commandsWriteOnlyTheirResults i _ t run
    simp [illegal, busy] at raised
  · simp [State.reset] at raised

/-! ### The operands of a pending command -/

/-- The two states hold the same operands and results of every command (R53, R59). -/
structure SameOperands (s u : State) : Prop where
  smp : u.smp = s.smp
  pkd : u.pkd = s.pkd
  prev : u.prev = s.prev
  w2b : u.w2b = s.w2b
  b2w : u.b2w = s.b2w
  w2bCnt : u.w2bCnt = s.w2bCnt
  b2wCnt : u.b2wCnt = s.b2wCnt
  lkX : u.lkX = s.lkX
  lkY : u.lkY = s.lkY
  lkRes : u.lkRes = s.lkRes
  lkMask : u.lkMask = s.lkMask

namespace SameOperands

theorem refl (s : State) : SameOperands s s := ⟨rfl, rfl, rfl, rfl, rfl, rfl, rfl, rfl, rfl, rfl, rfl⟩

variable {s u : State}

theorem complete (h : SameOperands s u) : SameOperands (complete s) (Machine.complete u) := { h with }

theorem storePacked (h : SameOperands s u) (F : List Byte) : SameOperands (storePacked F s) (Machine.storePacked F u) :=
  { h with pkd := rfl }

theorem storePrev (h : SameOperands s u) (F : List Byte) : SameOperands (storePrev F s) (Machine.storePrev F u) :=
  { h with prev := rfl }

theorem storeLists (h : SameOperands s u) (ws bs : List (BitVec 16)) :
    SameOperands (storeLists ws bs s) (Machine.storeLists ws bs u) :=
  { h with w2b := rfl, b2w := rfl, w2bCnt := rfl, b2wCnt := rfl }

theorem storeLookup (h : SameOperands s u) (r : BitVec 16 × BitVec 8) :
    SameOperands (storeLookup r s) (Machine.storeLookup r u) := { h with lkRes := rfl, lkMask := rfl }

/-- A command that completes on one state completes on any other with the same operands, with the same results. -/
theorem exec {t : State} {i : Instr} (h : SameOperands s u) (run : exec i s = .next t) :
    ∃ t', Machine.exec i u = .next t' ∧ SameOperands t t' := by
  cases i with
  | nop => cases run; exact ⟨_, rfl, h.complete⟩
  | pack =>
    obtain ⟨S, hl, hS, rfl⟩ := execPack_next run
    exact ⟨_, execPack_of_holds hl (h.smp.symm ▸ hS), (h.storePacked _).complete⟩
  | diff =>
    obtain ⟨Q, hQ, hpkd, rfl⟩ := execDiff_next run
    refine ⟨_, execDiff_of_holds hQ (h.pkd.symm ▸ hpkd), ?_⟩
    rw [h.prev]
    exact ((h.storeLists _ _).storePrev Q).complete
  | lookup =>
    obtain rfl := eq_of_exec_lookup run
    refine ⟨_, exec_lookup u, ?_⟩
    rw [h.lkX, h.lkY]
    exact (h.storeLookup _).complete
  | clrprev =>
    obtain rfl := Host.Outcome.next.inj ((exec_clrprev s).symm.trans run)
    exact ⟨_, exec_clrprev u, (h.storePrev _).complete⟩

end SameOperands

/-- Through Host steps while BUSY the command stays pending and its operands stay as they are (R53). -/
theorem hostSteps_keep_pending {s u : State} (h : HostSteps s u) (busy : s.phase = .busy) :
    u.phase = .busy ∧ u.cmd = s.cmd ∧ SameOperands s u := by
  induction h with
  | none s => exact ⟨busy, rfl, .refl s⟩
  | @more s t u ts turn first _ ih =>
    have keeps := hostCannotDisturbPendingCommand s t ts busy turn first
    have phase : t.phase = .busy := by rw [keeps]; exact busy
    obtain ⟨hp, hc, same⟩ := ih phase
    rw [keeps] at hc same
    exact ⟨hp, hc, { same with }⟩

/-- Settles O54: the Host steps keep the command and its operands, so it completes with the results it had at issue. -/
theorem pendingCommandActsOnIssuedOperands : Obligations.PendingCommandActsOnIssuedOperands := by
  unfold Obligations.PendingCommandActsOnIssuedOperands
  intro s u i busy hi steps
  obtain ⟨phase, cmd, same⟩ := hostSteps_keep_pending steps busy
  refine ⟨phase, cmd ▸ hi, fun t run => ?_⟩
  obtain ⟨t', run', results⟩ := same.exec run
  exact ⟨t', run', results.pkd, results.prev, results.w2b, results.b2w, results.w2bCnt, results.b2wCnt,
    results.lkRes, results.lkMask⟩

end Sys2Proof.Proofs
end

section
/-! Faults: which turns stop and how (R13, R92), the fault record (R34), and the end of the run (R101). -/

namespace Sys2Proof.Proofs

open Sys2Proof Sys2Proof.Machine Sys2Proof.Laws

/-! ### The fault of a turn that is taken -/

/-- A Host write stops only as a hazard (R43). -/
theorem hostWrite_error {s : State} {l : Loc} {v : BitVec l.width} {r : Fault} (h : hostWrite s l v = .error r) :
    r = .hazard l := by
  unfold hostWrite at h
  split at h
  · cases h; rfl
  · cases l <;> cases h

/-- A read of an element that may be unwritten stops only with UNINIT by the Host (R44). -/
theorem valueOr_error {l : Loc} {w : Nat} {o : Option (BitVec w)} {r : Fault} (h : valueOr l o = .error r) :
    r = .uninit .host l := by
  cases o <;> cases h
  rfl

/-- A Host read stops only as a hazard or at an unwritten element (R43, R44). -/
theorem hostRead_error {s : State} {l : Loc} {r : Fault} (h : hostRead s l = .error r) :
    r = .hazard l ∨ r = .uninit .host l := by
  unfold hostRead at h
  split at h
  · cases h; exact .inl rfl
  · cases l with
    | reg _ | prev _ => cases h
    | smp _ | pkd _ | w2b _ | b2w _ => exact .inr (valueOr_error h)

theorem isModelFault_of_runStmt_error {st : Stmt} {s : State} {r : Fault} (h : runStmt st s = .error r) :
    r.isModelFault = true := by
  obtain ⟨_, _, _, -, write⟩ | ⟨_, _, _, _, -, read⟩ := runStmt_error h
  · rw [hostWrite_error write]; rfl
  · obtain rfl | rfl := hostRead_error read <;> rfl

/-- The Host stops with a model fault when it has a next statement (R13). -/
theorem isModelFault_of_hostStep_fault {s : State} {r : Fault} (running : s.host.running = true)
    (h : hostStep s = .fault r) : r.isModelFault = true := by
  obtain ⟨-, next⟩ := running_iff.1 running
  have hst := List.getElem?_eq_getElem next
  cases run : runStmt s.host.prog[s.host.pos] s with
  | ok t => rw [hostStep_of_runStmt_ok hst run] at h; cases h
  | error q => rw [hostStep_of_runStmt_error hst run] at h; cases h; exact isModelFault_of_runStmt_error run

theorem isModelFault_of_exec_fault {i : Instr} {s : State} {r : Fault} (h : exec i s = .fault r) :
    r.isModelFault = true := by
  obtain ⟨-, _, rfl, -⟩ | ⟨-, _, rfl, -⟩ := (onlyUninitArisesFromCommands i s).2 r h <;> rfl

/-- A turn that is taken stops only with a model fault (R13, R101). -/
theorem isModelFault_of_step_fault {s : State} {u : Turn} {ts : List Turn} {r : Fault}
    (turn : chooseTurn s s.schedule = some (u, ts)) (h : step s = .fault r) : r.isModelFault = true := by
  cases u with
  | host =>
    rw [step_of_host_turn turn] at h
    exact isModelFault_of_hostStep_fault (s := withSchedule ts s) (enabled_host.1 (chooseTurn_enabled turn)).2 h
  | engine =>
    simp only [step, takeTurn, turn, engineStep] at h
    split at h
    · exact isModelFault_of_exec_fault h
    · cases h
  | reset => rw [step_of_reset_turn turn] at h; cases h

/-! ### When the machine is stuck -/

theorem step_eq_stuck_iff {s : State} : step s = .fault .stuck ↔ chooseTurn s s.schedule = none := by
  refine ⟨fun h => ?_, step_of_no_turn⟩
  cases turn : chooseTurn s s.schedule with
  | none => rfl
  | some p => cases isModelFault_of_step_fault turn h

/-- After a fault no agent has a step (R101). -/
theorem enabled_eq_false_of_faulted {s : State} (h : s.faultRecord ≠ []) :
    enabled s .engine = false ∧ enabled s .host = false := by
  simp [enabled, h]

/-- Settles O56: no turn can be taken, which is when nothing is pending and the Host does not run, or something has
faulted. -/
theorem stuckExactlyWhenNoAgentEnabled : Obligations.StuckExactlyWhenNoAgentEnabled := by
  unfold Obligations.StuckExactlyWhenNoAgentEnabled
  intro s
  rw [step_eq_stuck_iff, chooseTurn_eq_none]
  refine and_congr_right fun _ => ?_
  by_cases record : s.faultRecord = []
  · have idle : ¬s.phase = .busy ↔ s.phase = .idle := by cases s.phase <;> decide
    simp [← Bool.not_eq_true, enabled_engine, enabled_host, running_iff, record, idle, imp_iff_not_or]
  · exact iff_of_true (enabled_eq_false_of_faulted record) (.inl record)

/-! ### The state a fault leaves -/

theorem afterStep_of_next {s t : State} (h : step s = .next t) : afterStep s = t := by simp only [afterStep, h]

theorem afterStep_of_fault {s : State} {r : Fault} (h : step s = .fault r) : afterStep s = recordFault r s := by
  simp only [afterStep, h]

theorem afterStep_of_refused {s : State} {q : Refusal} (h : step s = .refused q) : afterStep s = s := by
  simp only [afterStep, h]

theorem mem_addFault_of_mem {q r : Fault} {record : List Fault} (h : r ∈ record) : r ∈ addFault q record := by
  unfold addFault
  split
  · exact List.mem_append_left _ h
  · exact h

theorem mem_addFault_self {r : Fault} (record : List Fault) (h : r.isModelFault = true) : r ∈ addFault r record := by
  unfold addFault
  split
  case isTrue => exact List.mem_append_right _ (List.mem_singleton_self r)
  case isFalse listed => simpa [h] using listed

/-- Settles O55: the fault is recorded, and with a fault on record and no reset to come no turn can be taken. -/
theorem faultEndsTheRun : Obligations.FaultEndsTheRun := by
  unfold Obligations.FaultEndsTheRun
  intro s r h model noReset
  rw [afterStep_of_fault h]
  have recorded : r ∈ (recordFault r s).faultRecord := mem_addFault_self s.faultRecord model
  refine ⟨recorded, rfl, step_of_no_turn (chooseTurn_eq_none.2 ⟨noReset, ?_⟩)⟩
  exact enabled_eq_false_of_faulted (List.ne_nil_of_mem recorded)

/-- A step that answers a next state keeps the fault record, reset included (R113). -/
theorem step_next_keeps_faultRecord {s t : State} (h : step s = .next t) : t.faultRecord = s.faultRecord := by
  obtain ⟨u, ts, -, ⟨-, host⟩ | ⟨-, i, -, run⟩ | ⟨-, rfl⟩⟩ := step_next h
  · obtain ⟨g, r, rfl, rfl | ⟨l, v, write⟩⟩ := hostStep_eq_withHost host
    · rfl
    · exact (hostWrite_keeps_prev_faultRecord write).2
  · exact exec_keeps_faultRecord (s := withSchedule ts s) run
  · rfl

/-- Settles O57: a fault is added to the record, and every other outcome keeps it. -/
theorem faultRecordOnlyGrows : Obligations.FaultRecordOnlyGrows := by
  unfold Obligations.FaultRecordOnlyGrows
  intro s r hr
  cases h : step s with
  | next t => rwa [afterStep_of_next h, step_next_keeps_faultRecord h]
  | fault q => rw [afterStep_of_fault h]; exact mem_addFault_of_mem hr
  | refused q => rwa [afterStep_of_refused h]

end Sys2Proof.Proofs
end

section
/-! Host programs: the effect of each statement (R64), and the polling loop `WAIT` (R65). -/

namespace Sys2Proof.Proofs

open Sys2Proof Sys2Proof.Machine Sys2Proof.Laws

/-! ### Statements -/

theorem runStmt_wr_error {sp : Space} {index value : Expr} {s : State} {r : Fault}
    (h : hostWrite s (hostLoc sp index s) (toBits _ (evalExpr s.host.vars value)) = .error r) :
    runStmt (.wr sp index value) s = .error r := by
  simp only [runStmt, runWr, h]

theorem runStmt_rd_error {name : Nat} {cell : Expr} {sp : Space} {index : Expr} {s : State} {r : Fault}
    (h : hostRead s (hostLoc sp index s) = .error r) : runStmt (.rd name cell sp index) s = .error r := by
  simp only [runStmt, runRd, h]

/-- `IF c GOTO L` with c false goes on. -/
theorem runStmt_ifGoto_of_false {c : Cond} {s : State} (l : Nat) (h : evalCond s.host.vars c = false) :
    runStmt (.ifGoto c l) s = .ok (withHost (advance s.host) s) := by
  simp only [runStmt, h, Bool.false_eq_true, if_false]

/-- `IF c GOTO L` with c true is `GOTO L`. -/
theorem runStmt_ifGoto_of_true {c : Cond} {s : State} (l : Nat) (h : evalCond s.host.vars c = true) :
    runStmt (.ifGoto c l) s = runStmt (.goto l) s := by
  simp only [runStmt, h, if_true]

/-- `GOTO L` goes to the first statement `L:`. -/
theorem jump_of_prog_eq {g : HostAgent} {l : Nat} {before after : List Stmt}
    (prog : g.prog = before ++ .label l :: after) (first : Stmt.label l ∉ before) : jump l g = { g with pos := before.length } := by
  rw [jump, prog, labelPos_append l before after 0 first, Option.getD_some, Nat.zero_add, ← prog]

/-- A Host variable cell takes a value, every other keeps its own, and the program goes on. -/
theorem lookupVar_assignNext (name : Nat) (cell z : Int) (g : HostAgent) (key : Nat × Int) :
    lookupVar (assignNext name cell z g).vars key = if key = (name, cell) then some z else lookupVar g.vars key :=
  lookupVar_assignVar g.vars (name, cell) key z

/-- Settles O59: each statement is its Host access and the move of the Host that follows. -/
theorem hostStatementEffects : Obligations.HostStatementEffects := by
  unfold Obligations.HostStatementEffects
  refine ⟨fun w z low high => toBits_of_fits (decide_eq_true ⟨low, high⟩), fun sp n => loc_of_lt, fun s => ?_⟩
  refine ⟨fun sp index value => ⟨fun t => runStmt_wr rfl rfl, fun r => runStmt_wr_error⟩,
    fun name cell sp index => ⟨fun v read => ?_, fun r => runStmt_rd_error⟩, fun l => rfl,
    fun c l => runStmt_ifGoto_of_false l, fun c l => runStmt_ifGoto_of_true l, fun l before after prog first => ?_,
    fun l _ => ⟨_, rfl⟩, fun name cell e => ?_, rfl⟩
  · exact ⟨_, runStmt_rd rfl read, rfl, rfl, lookupVar_assignNext name _ _ s.host⟩
  · rw [runStmt, jump_of_prog_eq prog first]
    rfl
  · exact ⟨_, rfl, rfl, rfl, lookupVar_assignNext name _ _ s.host⟩

/-! ### The polling loop -/

/-- A Host turn whose statement moves the Host alone (R64). -/
theorem step_of_host_move {s : State} {g g' : HostAgent} {st : Stmt} {us : List Turn} (record : s.faultRecord = [])
    (halted : g.halted = false) (hst : g.prog[g.pos]? = some st)
    (run : runStmt st (withHost g (withSchedule us s)) = .ok (withHost g' (withSchedule us s))) :
    step (withHost g (withSchedule (.host :: us) s)) = .next (withHost g' (withSchedule us s)) :=
  ((stepRunsHostStatement (withHost g (withSchedule (.host :: us) s)) st record halted hst).1 us rfl).1 _ run

/-- A run that begins with a step goes on from its next state. -/
theorem core_run_succ {s t u : State} {k : Nat} (first : step s = .next t) (rest : Sys2Proof.core.run k t = .next u) :
    Sys2Proof.core.run (k + 1) s = .next u := by
  have coreFirst : Sys2Proof.core.step s = .next t := first
  simp only [Host.Core.run, coreFirst, rest]

/-- `RD t, REG[1]` reads STATUS at any phase (R40). -/
theorem runStmt_rd_status (name : Nat) (s : State) : runStmt (.rd name (.int 0) .reg (.int 1)) s =
    .ok (withHost (assignNext name 0 (uint (readReg s 1#4) : Nat) s.host) s) :=
  runStmt_rd (l := .reg 1#4) rfl (hostRead_reg_of_not_hazard (not_hazard_of_control s (by decide)))

/-- Bit 0 of a natural number as a Host expression takes it (R7). -/
theorem sliceInt_zero_natCast (n : Nat) : sliceInt 0 0 n = (n % 2 : Nat) := by
  rw [sliceInt, if_pos (Nat.le_refl 0), BitVec.ofInt_natCast, uint, BitVec.extractLsb'_toNat, BitVec.toNat_ofNat,
    Nat.shiftRight_zero]
  exact congrArg Nat.cast (Nat.mod_mod n 2)

/-- Bit 0 of STATUS as the Host reads it is BUSY (R20). -/
theorem status_mod_two (s : State) : (readReg s 1#4).toNat % 2 = 1 ↔ s.phase = .busy := by
  have bit : (readReg s 1#4).getLsbD 0 = s.busy := getLsbD_statusWord s 0
  rw [BitVec.getLsbD, Nat.testBit_zero, State.busy] at bit
  exact decide_eq_decide.1 bit

/-- The condition of `WAIT` tests BUSY in the STATUS just read (R65). -/
theorem evalCond_wait (v : Nat) (g : HostAgent) (s : State) :
    evalCond (assignNext v 0 (uint (readReg s 1#4) : Nat) g).vars (.eq (.slice 0 0 (.var v)) (.int 1)) =
      decide (s.phase = .busy) := by
  simp only [evalCond, evalExpr, cellValue, lookupVar_assignNext, if_true, Option.getD_some, sliceInt_zero_natCast]
  rw [decide_eq_decide, ← status_mod_two]
  exact Nat.cast_eq_one

/-- The statement at place `k` of a fragment inside a program. -/
theorem getElem?_fragment {before fragment after : List Stmt} {k : Nat} (h : k < fragment.length) :
    (before ++ fragment ++ after)[before.length + k]? = fragment[k]? := by
  rw [List.append_assoc, List.getElem?_append_right (Nat.le_add_right _ _), Nat.add_sub_cancel_left,
    List.getElem?_append_left h]

/-- The Host after the label and the read of STATUS of `WAIT`. -/
def afterStatusRead (v : Nat) (s : State) : HostAgent :=
  assignNext v 0 (uint (readReg s 1#4) : Nat) (advance s.host)

/-- The Host after the whole of `WAIT`: back at the label while BUSY, past the jump while IDLE (R65). -/
def afterWait (l v : Nat) (s : State) : HostAgent :=
  if s.phase = .busy then jump l (afterStatusRead v s) else advance (afterStatusRead v s)

/-- The jump of `WAIT` is taken exactly while BUSY. -/
theorem runStmt_wait_jump (l v : Nat) (us : List Turn) (s : State) :
    runStmt (.ifGoto (.eq (.slice 0 0 (.var v)) (.int 1)) l) (withHost (afterStatusRead v s) (withSchedule us s)) =
      .ok (withHost (afterWait l v s) (withSchedule us s)) := by
  simp only [runStmt, withHost_host, afterStatusRead, evalCond_wait, decide_eq_true_eq]
  rfl

/-- `WAIT` on three Host turns: the label, the read of STATUS and the jump, none of which changes the block. -/
theorem core_run_wait {s : State} {l v : Nat} {before after : List Stmt} {ts : List Turn}
    (prog : s.host.prog = before ++ macroWait l v ++ after) (pos : s.host.pos = before.length)
    (halted : s.host.halted = false) (record : s.faultRecord = [])
    (schedule : s.schedule = .host :: .host :: .host :: ts) :
    Sys2Proof.core.run 3 s = .next (withHost (afterWait l v s) (withSchedule ts s)) := by
  have stmt : ∀ k < 3, s.host.prog[s.host.pos + k]? = (macroWait l v)[k]? := by
    intro k hk
    rw [prog, pos]
    exact getElem?_fragment hk
  have label := step_of_host_move (s := s) (g := s.host) (us := .host :: .host :: ts) record halted
    (stmt 0 (by decide)) rfl
  have status := step_of_host_move (s := s) (g := advance s.host) (us := .host :: ts) record halted
    (stmt 1 (by decide)) (runStmt_rd_status v _)
  have jumps := step_of_host_move (s := s) (g := afterStatusRead v s) (us := ts) record halted
    (stmt 2 (by decide)) (runStmt_wait_jump l v ts s)
  have here : s = withHost s.host (withSchedule (.host :: .host :: .host :: ts) s) :=
    (withSchedule_self schedule).symm
  rw [here]
  exact core_run_succ label (core_run_succ status (core_run_succ jumps rfl))

/-- Settles O60: the three turns change the Host and the schedule alone, and the label stands first at the end of
`before`. -/
theorem waitPollsBusy : Obligations.WaitPollsBusy := by
  unfold Obligations.WaitPollsBusy
  intro s l v before after ts prog first pos halted record schedule
  refine ⟨_, core_run_wait prog pos halted record schedule, rfl, ?_⟩
  have loop : (afterStatusRead v s).prog = before ++ .label l :: ((macroWait l v).tail ++ after) := by
    rw [← List.cons_append, ← List.append_assoc]; exact prog
  rw [withHost_host, afterWait]
  by_cases busy : s.phase = .busy
  · rw [if_pos busy, if_pos busy, jump_of_prog_eq loop first]
  · rw [if_neg busy, if_neg busy, ← pos]
    rfl

end Sys2Proof.Proofs
end
